-- ==== Sys2Proof/Word.lean ====
section
/-! DEFINITION. The widths the source fixes (R9): a register-block word is 32 bits, an operand one byte, the data bus
one nibble, a request one 12-bit word (R72). Nothing in LCD4 is signed (00_scope.md section 4.1). -/

namespace Sys2Proof

/-- One 32-bit word of the register block (R9, R42). -/
abbrev Word := BitVec 32

/-- One operand byte (R9). -/
abbrev Byte := BitVec 8

/-- One nibble: what the four data lines carry (R9). -/
abbrev Nibble := BitVec 4

/-- A 3-bit function-select field (R9, R21). -/
abbrev Field := BitVec 3

/-- One word of the request port: `op` in bits 11:8, `arg` in bits 7:0 (R72). -/
abbrev Request := BitVec 12

end Sys2Proof
end

