-- ==== Sys2Proof/Config.lean ====
section
/-! DEFINITION. The parameters of one LCD4 (00_scope.md section 3, R5 to R8): fixed for the machine, never changed by a
step. A `Config` carries the proof that it is well-formed (R8), so a configuration the spec refuses cannot be
built; `WellFormed.lean` holds the check that refuses one by name. The two opaque constants at the end are what
the spec leaves to the board. -/

namespace Sys2Proof

/-- A PinId, `0 .. 63` (R8, NPINS = 64). -/
abbrev Pin := Fin 64

/-- The lines of the bus (R76). -/
inductive Line where
  | d0 | d1 | d2 | d3 | rs | en | rw
deriving DecidableEq, Repr

/-- The seven delay classes (R7). -/
inductive DelayClass where
  | pre | pw | post | initLong | initShort | cmd | clear
deriving DecidableEq, Repr

/-- One natural number per delay class. -/
structure Delays where
  pre : Nat
  pw : Nat
  post : Nat
  initLong : Nat
  initShort : Nat
  cmd : Nat
  clear : Nat
deriving DecidableEq, Repr

/-- The number a table of delays gives a class. -/
def Delays.of (d : Delays) : DelayClass → Nat
  | .pre => d.pre
  | .pw => d.pw
  | .post => d.post
  | .initLong => d.initLong
  | .initShort => d.initShort
  | .cmd => d.cmd
  | .clear => d.clear

/-- The bus assignment (R5, R6): `d k` is the PinId that carries bit `k` of a nibble (conflict C1); RW is optional. -/
structure BusAssignment where
  d0 : Pin
  d1 : Pin
  d2 : Pin
  d3 : Pin
  rs : Pin
  en : Pin
  rw : Option Pin
deriving DecidableEq, Repr

/-- `line(l)`: the PinId assigned to a line, if the line exists (00_scope.md section 4.2). -/
def BusAssignment.pin? (b : BusAssignment) : Line → Option Pin
  | .d0 => some b.d0
  | .d1 => some b.d1
  | .d2 => some b.d2
  | .d3 => some b.d3
  | .rs => some b.rs
  | .en => some b.en
  | .rw => b.rw

/-- The six or seven assigned PinIds. -/
def BusAssignment.pins (b : BusAssignment) : List Pin :=
  [b.d0, b.d1, b.d2, b.d3, b.rs, b.en] ++ b.rw.toList

/-- The open parameters of an LCD4 (R5 to R8, R180). -/
structure Params where
  /-- The bus assignment (R5, R6). -/
  bus : BusAssignment
  /-- `RW_WRITE_LEVEL`: true when the asserted level means "write" (R6). -/
  rwWriteLevel : Bool
  /-- `FSEL_BASE`, a byte offset (R8, R41). -/
  fselBase : Nat
  /-- `SET_BASE`, a byte offset (R8, R41). -/
  setBase : Nat
  /-- `CLR_BASE`, a byte offset (R8, R41). -/
  clrBase : Nat
  /-- `C_FUNCSET`, INIT step 3 (R8, R83). -/
  funcset : List Nibble
  /-- `C_DISPCTRL`, INIT step 4 (R8, R83). -/
  dispctrl : List Nibble
  /-- `C_ENTRY`, INIT step 6 (R8, R83). -/
  entry : List Nibble
  /-- `C_LINE1`, INIT step 7 (R8, R83). -/
  line1 : List Nibble
  /-- `T(c)`: the least duration of each delay class, in an unstated unit (R7). -/
  minTime : Delays
  /-- `N(c)`: the length of each delay class in cycles of `clk` (R180). -/
  cycles : Delays
  /-- The period of `clk`, in the unit of `minTime` (R180). -/
  clkPeriod : Nat
  /-- `MSG`, the advisory message of the host layer (R8, R152). -/
  msg : List Byte
deriving DecidableEq, Repr

namespace Params

/-- The assigned PinIds are pairwise distinct (R8). -/
def pinsDistinct (p : Params) : Bool := decide p.bus.pins.Nodup

/-- The three bank bases are multiples of 4 (R8, R43). -/
def basesAligned (p : Params) : Bool :=
  p.fselBase % 4 == 0 && p.setBase % 4 == 0 && p.clrBase % 4 == 0

/-- Two banks of `m` and `n` words at byte offsets `a` and `b` share no byte. -/
def apart (a m b n : Nat) : Bool := decide (a + 4 * m ≤ b) || decide (b + 4 * n ≤ a)

/-- The three banks (7, 2 and 2 words for NPINS = 64) do not overlap (R8, R41). -/
def banksDisjoint (p : Params) : Bool :=
  apart p.fselBase 7 p.setBase 2 && apart p.fselBase 7 p.clrBase 2 && apart p.setBase 2 p.clrBase 2

/-- `T(INIT_SHORT) < T(INIT_LONG)` and `T(CMD) < T(CLEAR)` (R7, R8). -/
def delaysOrdered (p : Params) : Bool :=
  decide (p.minTime.initShort < p.minTime.initLong) && decide (p.minTime.cmd < p.minTime.clear)

/-- One or two nibble codes (R8). -/
def oneOrTwo (l : List Nibble) : Bool := l.length == 1 || l.length == 2

/-- Every open command list has one or two elements (R8). -/
def listsShort (p : Params) : Bool :=
  oneOrTwo p.funcset && oneOrTwo p.dispctrl && oneOrTwo p.entry && oneOrTwo p.line1

/-- `N(c) * period >= T(c)` for every class (R180). -/
def cyclesCover (p : Params) : Bool :=
  [DelayClass.pre, .pw, .post, .initLong, .initShort, .cmd, .clear].all
    fun c => decide (p.minTime.of c ≤ p.cycles.of c * p.clkPeriod)

/-- A well-formed configuration (R8; R180 for the cycle lengths). -/
def wf (p : Params) : Bool :=
  p.pinsDistinct && p.basesAligned && p.banksDisjoint && p.delaysOrdered && p.listsShort && p.cyclesCover

/-- The spec's reference configuration A (95_test_vectors.md section 0; used by examples, of no standing: N2, N6, N11). The
delays and the message are this model's own example values, since the spec gives none (DESIGN CHOICE, log entry 23). -/
def referenceA : Params where
  bus := { d0 := 5, d1 := 6, d2 := 13, d3 := 19, rs := 26, en := 21, rw := none }
  rwWriteLevel := false
  fselBase := 0x00
  setBase := 0x1C
  clrBase := 0x28
  funcset := [0x8]
  dispctrl := [0x0, 0xC]
  entry := [0x0, 0x6]
  line1 := [0x8, 0x0]
  minTime := { pre := 1, pw := 2, post := 3, initLong := 6, initShort := 4, cmd := 4, clear := 5 }
  cycles := { pre := 1, pw := 2, post := 3, initLong := 6, initShort := 4, cmd := 4, clear := 5 }
  clkPeriod := 1
  msg := [0x62, 0x75, 0x73, 0x79]

/-- The spec's reference configuration B (95_test_vectors.md section 0): the data lines straddle two banks, RW is present. -/
def referenceB : Params :=
  { referenceA with bus := { d0 := 30, d1 := 31, d2 := 32, d3 := 33, rs := 9, en := 10, rw := some 39 } }

end Params

/-- A well-formed configuration: the parameters together with the proof of R8, so that "a model refuses a configuration
that is not well-formed" holds by construction. The default values serve only to show Lean that the type has an
element. -/
structure Config where
  params : Params := Params.referenceA
  ok : params.wf = true := by decide
deriving DecidableEq, Repr, Inhabited

/-- `line(l)` (00_scope.md section 4.2). -/
abbrev Config.pin? (c : Config) (l : Line) : Option Pin := c.params.bus.pin? l

/-- A pin of the bus assignment. -/
abbrev Config.isBusPin (c : Config) (p : Pin) : Bool := c.params.bus.pins.contains p

/-- The configuration of the machine at hand (R32: parameters, not state; decisions D6, D8, D14, D25 leave them open).
Nothing in Lean can evaluate it: a statement about it holds for every well-formed configuration (DESIGN CHOICE, log entry 1). -/
opaque Config.board : Config

/-- What the function-select words hold before the block's first write, by word index: a free 32-bit value per word
(R45, decision D18). Nothing in Lean can evaluate it (DESIGN CHOICE, log entry 2). -/
opaque Config.fselAtPowerUp : Nat → Word

end Sys2Proof
end

