-- ==== Sys2Proof/Machine/State.lean ====
section
/-! DEFINITION. The state of LCD4, of the register block it drives and of the host that feeds it (10_state.md), as plain
data, and the state after reset (R33). A field marked MODEL'S OWN is no state of the spec: it holds the parameters of
the machine at hand, an input that has not arrived yet, or an observation (DESIGN CHOICE, log entries 1, 4, 7, 12 to 16, 20,
27 and 28). -/

namespace Sys2Proof.Machine

/-- `PHASE` (R16): where the block is in its life. The value 3 is reserved and never taken, so it has no constructor. -/
inductive Phase where
  /-- 0: the bus pins have not been configured by the block. -/
  | detached
  /-- 1: CONFIG has completed. -/
  | configured
  /-- 2: INIT has completed at least once since CONFIG. -/
  | initialized
deriving DecidableEq, Repr

/-- `LEVEL[p]` (R22): what a pin's output latch holds. -/
inductive Level where
  /-- Deasserted. -/
  | low
  /-- Asserted, "logic-high". -/
  | high
  /-- No set or clear write to the pin has happened: the spec's own value (R22), not a stand-in for one. -/
  | unknown
deriving DecidableEq, Repr

/-- The pin events (R76). -/
inductive PinEvent where
  /-- Configure a line as an output (R100). -/
  | cfg (l : Line)
  /-- Assert a line (R101). -/
  | hi (l : Line)
  /-- Deassert a line (R102). -/
  | lo (l : Line)
  /-- Blocking delay of a class (R104). -/
  | wait (c : DelayClass)
deriving DecidableEq, Repr

/-- The register block (20_memory.md): the stored words of the function-select bank and the output latches. The set and
clear words store nothing (R46, R47); there is no other storage (R40). -/
structure RegBlock where
  /-- `FSEL[b]`, `b = 0 .. 6`, 32 bits each (R45). `MODE[p]` is a field of one of them (R21). -/
  fsel : Vector Word 7
  /-- `LEVEL[p]`, `p = 0 .. 63` (R22). -/
  level : Vector Level 64
  /-- MODEL'S OWN ghost: the pin has been written since its mode last changed, and was an output at that write. U10 lets the
  latch reach the line only then (R23, R49). -/
  shown : Vector Bool 64
deriving DecidableEq, Repr

/-- MODEL'S OWN: the grain at which a request runs (10_state.md section 2 names the levels). -/
inductive Pace where
  /-- Each operation is one atomic step. -/
  | whole
  /-- A step is one register access or one cycle of a wait. -/
  | clocked
deriving DecidableEq, Repr

/-- What a host-layer procedure, a status read or another agent's read gave back. -/
inductive HostResult where
  /-- OPEN answered OK (R150). -/
  | opened
  /-- OPEN answered Busy (R150, R170). -/
  | openBusy
  /-- READ answered these bytes (R152). -/
  | bytes (bs : List Byte)
  /-- WRITE answered this length (R153). -/
  | wrote (len : Nat)
  /-- The host read STATUS (R19). -/
  | status (v : Byte)
  /-- Another agent read a register-block word. -/
  | word (v : Word)
deriving DecidableEq, Repr

/-- One thing the outside world does: the host at the request port (R70, R71), the host layer (43_stream_host.md), the reset
input (R190), another user of the register block (R156). -/
inductive HostMove where
  /-- Present a request word and hold it until it is accepted (R71). -/
  | request (w : Request)
  /-- Let one step pass without presenting anything. -/
  | clock
  /-- Read STATUS (R19). -/
  | readStatus
  /-- OPEN (R150). -/
  | openStream
  /-- CLOSE (R151). -/
  | closeStream
  /-- READ maxBytes (R152). -/
  | readStream (maxBytes : Nat)
  /-- WRITE bytes (R153). -/
  | writeStream (bytes : List Byte)
  /-- A WRITE in progress: the request words it still has to present, and the length it will report. -/
  | feed (words : List Request) (len : Nat)
  /-- Another agent reads the register-block word at a byte offset. -/
  | agentRead (addr : Nat)
  /-- Another agent writes the register-block word at a byte offset. -/
  | agentWrite (addr : Nat) (v : Word)
  /-- `rst` will be asserted after this many more steps (R190, R192). -/
  | assertReset (after : Nat)
  /-- Choose the grain of the requests accepted from here on. -/
  | setPace (p : Pace)
deriving DecidableEq, Repr

/-- Reasons the machine stops with a fault: none. "No operation faults" (R174), register accesses cannot fail (R52), and
93_implementation_defined.md U12 asks for no fault constructor. -/
inductive Fault where
deriving DecidableEq, Repr

/-- Reasons a step has no meaning. -/
inductive Refusal where
  /-- Raised by an arm of `exec` whose instruction has no meaning yet; safe. No arm raises it. -/
  | notModelled (mnemonic : String)
  /-- Raised by the host layer's READ and WRITE when no stream is open (R155, U13: a model refuses them); safe. -/
  | streamNotOpen
  /-- Raised by another agent's read of a set or clear word, a write-only register whose read has no value (R48, U7); safe. -/
  | readOfWriteOnlyWord (addr : Nat)
  /-- Raised by another agent's access at an offset that is no word of the three banks: what lies there is the platform's and
  the spec gives no meaning to it, nor to a misaligned access (R43, R53); safe. -/
  | offsetOutsideTheBanks (addr : Nat)
deriving DecidableEq, Repr

/-- The state of the machine. -/
structure State where
  /-- MODEL'S OWN: the parameters of the machine at hand (R32); no step changes them. -/
  cfg : Config
  /-- `OP`, 4 bits: the operation code of the last accepted request (R13). -/
  op : BitVec 4
  /-- `ARG`, 8 bits: the operand of the last accepted request (R11). -/
  arg : Byte
  /-- `NIB`, 4 bits: the nibble being placed on the data lines (R12). -/
  nib : Nibble
  /-- `UPC`: the position of the next pin event in the operation's list (R14). -/
  upc : Nat
  /-- `BUSY` (R15). -/
  busy : Bool
  /-- `PHASE` (R16). -/
  phase : Phase
  /-- `ILL`, sticky (R17). -/
  ill : Bool
  /-- `VIOL`, sticky, ghost (R18). -/
  viol : Bool
  /-- `DLY`: the delay counter (R20). -/
  dly : Nat
  /-- MODEL'S OWN: the word `CFG` has read and not yet written back, in a clocked run (R51: read and write are two accesses). -/
  rdata : Option Word
  /-- The register block (20_memory.md), outside the sequencer. -/
  block : RegBlock
  /-- `TRACE`, ghost: the pin events since reset, in order (R26). -/
  trace : List PinEvent
  /-- MODEL'S OWN: the events emitted before the last reset (R192: "a history of its own beside TRACE"). -/
  history : List PinEvent
  /-- `OPEN_GUARD` (R27). -/
  openGuard : Bool
  /-- `READ_CURSOR` (R28). -/
  readCursor : Nat
  /-- MODEL'S OWN ghost: since reset, another agent has broken the fourth row of R156. -/
  trespass : Bool
  /-- MODEL'S OWN: what the host was given back, in order. -/
  results : List HostResult
  /-- MODEL'S OWN: what the outside world does next, in order. -/
  pending : List HostMove
  /-- MODEL'S OWN: the number of steps after which `rst` is asserted, if it is going to be. -/
  rstIn : Option Nat
  /-- MODEL'S OWN: the grain of the next request. -/
  pace : Pace
deriving DecidableEq, Repr

/-- The state after reset (R33) of an LCD4 with configuration `c` on a register block `b`, with nothing presented. -/
def State.resetOn (c : Config) (b : RegBlock) : State where
  cfg := c
  op := 0
  arg := 0
  nib := 0
  upc := 0
  busy := false
  phase := .detached
  ill := false
  viol := false
  dly := 0
  rdata := none
  block := b
  trace := []
  history := []
  openGuard := false
  readCursor := 0
  trespass := false
  results := []
  pending := []
  rstIn := none
  pace := .whole

/-- The register block before LCD4's first access: function-select words free (R45, D18), levels unknown (R22, R33), so
no write has reached a line (log entry 27). -/
def RegBlock.powerUp : RegBlock where
  fsel := #v[Config.fselAtPowerUp 0, Config.fselAtPowerUp 1, Config.fselAtPowerUp 2, Config.fselAtPowerUp 3,
             Config.fselAtPowerUp 4, Config.fselAtPowerUp 5, Config.fselAtPowerUp 6]
  level := Vector.replicate 64 .unknown
  shown := Vector.replicate 64 false

/-- The machine right after reset (R33). -/
def State.reset : State := State.resetOn Config.board RegBlock.powerUp

end Sys2Proof.Machine
end

