-- ==== Sys2Proof/Machine/Flags.lean ====
section
/-! DEFINITION. The flags: when acceptance sets ILL (R74, R172) and VIOL (the table of R173), what completion does to PHASE
(R125, R127, R129), and the STATUS word (R19). -/

namespace Sys2Proof.Machine

/-- A reserved operation code: `0x0` and `0x9 .. 0xF` (R74). -/
def Flags.reservedOp (op : BitVec 4) : Bool := op == 0x0 || decide (0x9 ≤ op)

/-- The contract is broken by accepting the operation in the phase (the table of R173; that the operation runs all the same: DESIGN
CHOICE, log entry 6). -/
def Flags.violates (op : BitVec 4) (p : Phase) : Bool :=
  if Flags.reservedOp op then false
  else if op == 0x1 then p != .detached
  else if op == 0x2 || op == 0x8 then p == .detached
  else p != .initialized

/-- `PHASE` when the operation completes: CONFIG leaves DETACHED (R125), INIT reaches INITIALIZED unless detached (R127),
DETACH reaches DETACHED (R129), everything else leaves it (R16, R74). -/
def Flags.phaseAfter (op : BitVec 4) (p : Phase) : Phase :=
  if op == 0x1 then (if p == .detached then .configured else p)
  else if op == 0x2 then (if p == .detached then p else .initialized)
  else if op == 0x8 then .detached
  else p

/-- The two bits of `PHASE` (R16). -/
def Flags.phaseBits : Phase → BitVec 2
  | .detached => 0
  | .configured => 1
  | .initialized => 2

/-- `STATUS` (R19): bit 0 BUSY, bits 2:1 PHASE, bit 3 ILL, bits 7:4 read as 0. -/
def Flags.status (s : State) : Byte :=
  (0#4 ++ BitVec.ofBool s.ill) ++ Flags.phaseBits s.phase ++ BitVec.ofBool s.busy

/-- `req_ready`, the output that lets the host's request in (R70). -/
def Flags.reqReady (s : State) : Bool := !s.busy

end Sys2Proof.Machine
end

