-- ==== Sys2Proof/Machine/Operands.lean ====
section
/-! DEFINITION. Operand assembly (R78) and the fixed event lists built from it: the bus update, the enable pulse, the command
write and CMDSEQ (R105, R106, R120, R123). The sequencer's list elements (`MicroOp`) say when NIB is loaded (R12);
`MicroOp.event` gives the pin event of the alphabet of R76. -/

namespace Sys2Proof.Machine

/-- `cmd_nib = ARG & 0xF` (R78). -/
def Operands.cmdNib (arg : Byte) : Nibble := arg.extractLsb' 0 4

/-- `hi_nib = (ARG >> 4) & 0xF` (R78). -/
def Operands.hiNib (arg : Byte) : Nibble := arg.extractLsb' 4 4

/-- `lo_nib = ARG & 0xF` (R78). -/
def Operands.loNib (arg : Byte) : Nibble := arg.extractLsb' 0 4

/-- The data line that carries bit `k` of a nibble (R80, conflict C1). -/
def Operands.dataLine (k : Fin 4) : Line :=
  match k with
  | 0 => .d0
  | 1 => .d1
  | 2 => .d2
  | 3 => .d3

/-- `ev(k)` of R105: assert line `Dk` if bit `k` of the nibble is 1, else deassert it. -/
def Operands.drive (n : Nibble) (k : Fin 4) : PinEvent :=
  if n.getLsbD k.val then .hi (Operands.dataLine k) else .lo (Operands.dataLine k)

/-- One element of the sequencer's list: a fixed pin event, or the drive of data line `k` from NIB, which the first drive of
a bus update loads first (R12, R105). -/
inductive MicroOp where
  | fixed (e : PinEvent)
  | bus (load : Option Nibble) (k : Fin 4)
deriving DecidableEq, Repr

/-- NIB after the element (R12: "Written at the start of each bus update"). -/
def Operands.nibAfter (nib : Nibble) : MicroOp → Nibble
  | .fixed _ => nib
  | .bus load _ => load.getD nib

/-- The pin event of the element, NIB being `nib` before it (R12: "read by the four HI/LO events of that bus update"). -/
def Operands.event (nib : Nibble) : MicroOp → PinEvent
  | .fixed e => e
  | .bus load k => Operands.drive (load.getD nib) k

/-- The pin events of a list, in order. -/
def Operands.events (nib : Nibble) : List MicroOp → List PinEvent
  | [] => []
  | m :: ms => Operands.event nib m :: Operands.events (Operands.nibAfter nib m) ms

/-- `BUSUPD(n)` (R105): four drives, `D0` first. -/
def Operands.busUpd (n : Nibble) : List MicroOp :=
  [.bus (some n) 0, .bus none 1, .bus none 2, .bus none 3]

/-- `PULSE` (R106). -/
def Operands.pulse : List MicroOp :=
  [.fixed (.lo .en), .fixed (.wait .pre), .fixed (.hi .en), .fixed (.wait .pw), .fixed (.lo .en), .fixed (.wait .post)]

/-- The command write of one nibble (R120): RS low, bus update, pulse. -/
def Operands.writeCommand (n : Nibble) : List MicroOp :=
  [.fixed (.lo .rs)] ++ Operands.busUpd n ++ Operands.pulse

/-- The data write of one byte (R121): RS high, then each nibble with its pulse, high nibble first. -/
def Operands.writeData (v : Byte) : List MicroOp :=
  [.fixed (.hi .rs)] ++ (Operands.busUpd (Operands.hiNib v) ++ Operands.pulse)
    ++ (Operands.busUpd (Operands.loNib v) ++ Operands.pulse)

/-- `CMDSEQ(codes, c)` (R123): the command writes of the codes in order, then one wait. -/
def Operands.cmdSeq (codes : List Nibble) (c : DelayClass) : List MicroOp :=
  codes.flatMap Operands.writeCommand ++ [.fixed (.wait c)]

/-- `C_CLEAR = [0x0, 0x1]` (R83). -/
def Operands.cClear : List Nibble := [0x0, 0x1]

/-- `C_HOME = [0x0, 0x2]` (R83). -/
def Operands.cHome : List Nibble := [0x0, 0x2]

/-- `C_LINE2 = [0x0, 0xC]` (R83, conflict C3: the source's literal stands). -/
def Operands.cLine2 : List Nibble := [0x0, 0xC]

end Sys2Proof.Machine
end

