-- ==== Sys2Proof/Machine/Ops.lean ====
section
/-! DEFINITION. The named operations: register-block addresses and accesses (20_memory.md), the pin events (R100 to R104), the
acceptance and completion of a request (R71), the reset input (R190 to R193). LCD4 has no trap entry and no trap
return (R177, R178), so there is none here: ILL and VIOL are flags set at acceptance. -/

namespace Sys2Proof.Machine

/-! ## The register block -/

/-- A word of the register block (R45 to R47). -/
inductive Reg where
  | fsel (b : Fin 7)
  | set (b : Fin 2)
  | clr (b : Fin 2)
deriving DecidableEq, Repr

/-- `FSEL_ADDR(b)` (R41). -/
def Ops.fselAddr (c : Config) (b : Nat) : Nat := c.params.fselBase + 4 * b

/-- `SET_ADDR(b)` (R41). -/
def Ops.setAddr (c : Config) (b : Nat) : Nat := c.params.setBase + 4 * b

/-- `CLR_ADDR(b)` (R41). -/
def Ops.clrAddr (c : Config) (b : Nat) : Nat := c.params.clrBase + 4 * b

/-- The byte offset of a word (R41). -/
def Ops.addrOf (c : Config) : Reg → Nat
  | .fsel b => Ops.fselAddr c b
  | .set b => Ops.setAddr c b
  | .clr b => Ops.clrAddr c b

/-- The words of the three banks (the map of R53). -/
def Ops.allRegs : List Reg :=
  [.fsel 0, .fsel 1, .fsel 2, .fsel 3, .fsel 4, .fsel 5, .fsel 6, .set 0, .set 1, .clr 0, .clr 1]

/-- The word at a byte offset, if the map of R53 has one there. -/
def Ops.locate (c : Config) (addr : Nat) : Option Reg :=
  Ops.allRegs.find? fun r => Ops.addrOf c r == addr

/-- `for p in 0 .. n - 1: if on(p): v[p] <- x`, one entry per pin (the loops of R46 and R47). -/
def Ops.setWhere {α : Type} (x : α) (on : Pin → Bool) : (n : Nat) → n ≤ 64 → Vector α 64 → Vector α 64
  | 0, _, v => v
  | n + 1, h, v =>
    let v' := Ops.setWhere x on n (Nat.le_of_succ_le h) v
    if on ⟨n, h⟩ then v'.set n x h else v'

/-- The pin lies in bank `b` and its bit in `v` is 1 (R46, R47). -/
def Ops.hits (b : Fin 2) (v : Word) (p : Pin) : Bool := p.val / 32 == b.val && v.getLsbD (p.val % 32)

/-- The shift of a pin's function-select field, `(p % 10) * 3` (R41). -/
def Ops.fieldShift (p : Pin) : Nat := (p.val % 10) * 3

/-- `MODE[p]` (R21): the pin's field of its function-select word. -/
def Ops.mode (k : RegBlock) (p : Pin) : Field :=
  (k.fsel[p.val / 10]'(by omega)).extractLsb' (Ops.fieldShift p) 3

/-- `LEVEL[p]` (R22). -/
def Ops.level (k : RegBlock) (p : Pin) : Level := k.level[p]

/-- The pin has been written since it was last made an output (U10). -/
def Ops.shown (k : RegBlock) (p : Pin) : Bool := k.shown[p]

/-- A write of `v` to the set or clear word `b`: the pins whose bit is 1 take the level `x` (R46, R47), whether or not they are
outputs (R49); for the pins that are, it is a write since they became outputs (U10). -/
def Ops.driveWord (x : Level) (b : Fin 2) (v : Word) (k : RegBlock) : RegBlock :=
  { k with
    level := Ops.setWhere x (Ops.hits b v) 64 (Nat.le_refl 64) k.level
    shown := Ops.setWhere true (fun p => Ops.hits b v p && Ops.mode k p == 1) 64 (Nat.le_refl 64) k.shown }

/-- Replace a function-select word (R45); a pin whose mode changes has not been written since (U10, log entry 20). -/
def Ops.selectWord (b : Fin 7) (v : Word) (k : RegBlock) : RegBlock :=
  let k' := { k with fsel := k.fsel.set b.val v b.isLt }
  { k' with shown := Ops.setWhere false (fun p => Ops.mode k' p != Ops.mode k p) 64 (Nat.le_refl 64) k.shown }

/-- The effect of writing `v` to a word: replace a function-select word (R45), assert (R46), deassert (R47). -/
def Ops.writeReg (r : Reg) (v : Word) (k : RegBlock) : RegBlock :=
  match r with
  | .fsel b => Ops.selectWord b v k
  | .set b => Ops.driveWord .high b v k
  | .clr b => Ops.driveWord .low b v k

/-- `MemWrite(addr, 4, v)` (R42): never fails (R52); the block computes only offsets of the three banks. -/
def Ops.memWrite (c : Config) (addr : Nat) (v : Word) (k : RegBlock) : RegBlock :=
  match Ops.locate c addr with
  | some r => Ops.writeReg r v k
  | none => k

/-- `MemRead(addr, 4)` (R42) of a word that can be read: a function-select word (R45). A set or clear word gives no value (R48). -/
def Ops.memRead (c : Config) (addr : Nat) (k : RegBlock) : Option Word :=
  match Ops.locate c addr with
  | some (.fsel b) => some k.fsel[b]
  | _ => none

/-- The offset of the function-select word of a pin (R41). -/
def Ops.fselAddrOf (c : Config) (p : Pin) : Nat := Ops.fselAddr c (p.val / 10)

/-- The offset of the set word of a pin (R41). -/
def Ops.setAddrOf (c : Config) (p : Pin) : Nat := Ops.setAddr c (p.val / 32)

/-- The offset of the clear word of a pin (R41). -/
def Ops.clrAddrOf (c : Config) (p : Pin) : Nat := Ops.clrAddr c (p.val / 32)

/-- The one-bit mask of a pin in its set or clear word (R77). -/
def Ops.pinMask (p : Pin) : Word := 1#32 <<< (p.val % 32)

/-- The function-select word with a pin's field made `0b001` and every other bit kept (R77, R100). -/
def Ops.asOutput (p : Pin) (w : Word) : Word :=
  (w &&& ~~~(7#32 <<< Ops.fieldShift p)) ||| (1#32 <<< Ops.fieldShift p)

/-! ## The pin events -/

/-- The read access of `CFG(l)` (R100). -/
def Ops.cfgRead (c : Config) (l : Line) (k : RegBlock) : Option Word :=
  (c.pin? l).bind fun p => Ops.memRead c (Ops.fselAddrOf c p) k

/-- The write access of `CFG(l)` after a read that gave `w` (R100). -/
def Ops.cfgWrite (c : Config) (l : Line) (w : Word) (k : RegBlock) : RegBlock :=
  match c.pin? l with
  | some p => Ops.memWrite c (Ops.fselAddrOf c p) (Ops.asOutput p w) k
  | none => k

/-- The effect of a pin event on the register block (R100 to R102; a wait makes no access, R104). A line that does not exist
(RW when `PIN_RW` is none, R6) is in no list and does nothing. -/
def Ops.applyEvent (c : Config) (e : PinEvent) (k : RegBlock) : RegBlock :=
  match e with
  | .cfg l =>
    match Ops.cfgRead c l k with
    | some w => Ops.cfgWrite c l w k
    | none => k
  | .hi l =>
    match c.pin? l with
    | some p => Ops.memWrite c (Ops.setAddrOf c p) (Ops.pinMask p) k
    | none => k
  | .lo l =>
    match c.pin? l with
    | some p => Ops.memWrite c (Ops.clrAddrOf c p) (Ops.pinMask p) k
    | none => k
  | .wait _ => k

/-- DLY after a pin event: a wait counts it down to 0 (R104, R180), nothing else touches it. -/
def Ops.dlyAfter (e : PinEvent) (dly : Nat) : Nat :=
  match e with
  | .wait _ => 0
  | _ => dly

/-- What completing a list element adds beside its effect on the block: NIB (R12), UPC (R14), TRACE (R26). -/
def Ops.record (m : MicroOp) (s : State) : State :=
  { s with
    nib := Operands.nibAfter s.nib m
    upc := s.upc + 1
    trace := s.trace ++ [Operands.event s.nib m] }

/-- One list element as one indivisible pin event (R100 to R104). -/
def Ops.perform (m : MicroOp) (s : State) : State :=
  Ops.record m
    { s with
      block := Ops.applyEvent s.cfg (Operands.event s.nib m) s.block
      dly := Ops.dlyAfter (Operands.event s.nib m) s.dly }

/-- `do S` (00_scope.md section 4.2): the elements of a list in order, each finished before the next. -/
def Ops.performAll : List MicroOp → State → State
  | [], s => s
  | m :: ms, s => Ops.performAll ms (Ops.perform m s)

/-! ## Acceptance and completion of a request -/

/-- Acceptance (R71), with the phase check of R173 and the reserved-code flag of R74. -/
def Ops.accept (op : BitVec 4) (arg : Byte) (s : State) : State :=
  { s with
    op := op
    arg := arg
    upc := 0
    busy := true
    ill := s.ill || Flags.reservedOp op
    viol := s.viol || Flags.violates op s.phase }

/-- Completion: BUSY falls and the operation's effect on PHASE happens at that same moment (R71). -/
def Ops.complete (s : State) : State :=
  { s with busy := false, phase := Flags.phaseAfter s.op s.phase }

/-- One request as one step: accepted, its list performed, completed (R71). While BUSY is 1 it is not accepted and has no
effect (R71). -/
def Ops.runRequest (op : BitVec 4) (arg : Byte) (list : List MicroOp) (s : State) :
    Host.Outcome State Fault Refusal :=
  if s.busy then .next s
  else .next (Ops.complete (Ops.performAll list (Ops.accept op arg s)))

/-! ## Reset -/

/-- A host procedure in progress is dropped when the host layer is restarted with the block (R193). -/
def Ops.dropInterrupted : List HostMove → List HostMove
  | .feed _ _ :: rest => rest
  | ms => ms

/-- `rst` (R33, R190 to R193): the sequencer and the host layer take their reset values; the register block keeps everything
(R191); the operation in progress is abandoned and its events stay in the history (R192; DESIGN CHOICE, log
entries 15 and 16). -/
def Ops.rst (s : State) : State :=
  { s with
    op := 0
    arg := 0
    nib := 0
    upc := 0
    busy := false
    phase := .detached
    ill := false
    viol := false
    dly := 0
    rdata := none
    trace := []
    history := s.history ++ s.trace
    openGuard := false
    readCursor := 0
    trespass := false
    pending := Ops.dropInterrupted s.pending
    rstIn := none }

end Sys2Proof.Machine
end

