-- ==== Sys2Proof/Machine/Display.lean ====
section
/-! DEFINITION. The display operations (42_display_ops.md): CLEAR, HOME, LINE2. WRCHAR is WRDATA's request word (R143). -/

namespace Sys2Proof.Machine

/-- The list of CLEAR (R140). -/
def Display.clearList : List MicroOp := Operands.cmdSeq Operands.cClear .clear

/-- The list of HOME (R141): the source gives it the shorter wait. -/
def Display.homeList : List MicroOp := Operands.cmdSeq Operands.cHome .cmd

/-- The list of LINE2 (R142). -/
def Display.line2List : List MicroOp := Operands.cmdSeq Operands.cLine2 .cmd

/-- CLEAR (R140). -/
def execClear (arg : Byte) (s : State) : Host.Outcome State Fault Refusal :=
  Ops.runRequest 0x5 arg Display.clearList s

/-- HOME (R141). -/
def execHome (arg : Byte) (s : State) : Host.Outcome State Fault Refusal :=
  Ops.runRequest 0x6 arg Display.homeList s

/-- LINE2 (R142). -/
def execLine2 (arg : Byte) (s : State) : Host.Outcome State Fault Refusal :=
  Ops.runRequest 0x7 arg Display.line2List s

end Sys2Proof.Machine
end

