-- ==== Sys2Proof/Machine/Protocol.lean ====
section
/-! DEFINITION. The protocol operations (41_protocol_ops.md): CONFIG, INIT, WRCMD, WRDATA, DETACH. For each, the list the
sequencer emits and the meaning of the request. -/

namespace Sys2Proof.Machine

/-- The events of CONFIG on the RW line: configure it, then drive it to the write level (R125, R126). -/
def Protocol.rwList (p : Params) : List MicroOp :=
  match p.bus.rw with
  | none => []
  | some _ => [.fixed (.cfg .rw), .fixed (if p.rwWriteLevel then .hi .rw else .lo .rw)]

/-- The list of CONFIG (R125). -/
def Protocol.configList (p : Params) : List MicroOp :=
  [.fixed (.cfg .d0), .fixed (.cfg .d1), .fixed (.cfg .d2), .fixed (.cfg .d3), .fixed (.cfg .rs), .fixed (.cfg .en)]
    ++ Protocol.rwList p

/-- The list of INIT (R127): its ten CMDSEQ in order. -/
def Protocol.initList (p : Params) : List MicroOp :=
  Operands.cmdSeq [0x3] .initLong
    ++ Operands.cmdSeq [0x3] .initLong
    ++ Operands.cmdSeq [0x3] .initShort
    ++ Operands.cmdSeq [0x2] .cmd
    ++ Operands.cmdSeq [0x2] .cmd
    ++ Operands.cmdSeq p.funcset .cmd
    ++ Operands.cmdSeq p.dispctrl .cmd
    ++ Operands.cmdSeq Operands.cClear .clear
    ++ Operands.cmdSeq p.entry .cmd
    ++ Operands.cmdSeq p.line1 .cmd

/-- The list of WRCMD (R120): one nibble, `code & 0xF`. -/
def Protocol.wrcmdList (code : Byte) : List MicroOp := Operands.writeCommand (Operands.cmdNib code)

/-- The list of WRDATA (R121). -/
def Protocol.wrdataList (value : Byte) : List MicroOp := Operands.writeData value

/-- The list of DETACH (R129): no event (decision D13). -/
def Protocol.detachList : List MicroOp := []

/-- CONFIG (R125). -/
def execConfig (arg : Byte) (s : State) : Host.Outcome State Fault Refusal :=
  Ops.runRequest 0x1 arg (Protocol.configList s.cfg.params) s

/-- INIT (R127). -/
def execInit (arg : Byte) (s : State) : Host.Outcome State Fault Refusal :=
  Ops.runRequest 0x2 arg (Protocol.initList s.cfg.params) s

/-- WRCMD code (R120). -/
def execWrcmd (code : Byte) (s : State) : Host.Outcome State Fault Refusal :=
  Ops.runRequest 0x3 code (Protocol.wrcmdList code) s

/-- WRDATA value (R121). -/
def execWrdata (value : Byte) (s : State) : Host.Outcome State Fault Refusal :=
  Ops.runRequest 0x4 value (Protocol.wrdataList value) s

/-- DETACH (R129). -/
def execDetach (arg : Byte) (s : State) : Host.Outcome State Fault Refusal :=
  Ops.runRequest 0x8 arg Protocol.detachList s

end Sys2Proof.Machine
end

