-- ==== Sys2Proof/Machine/Reserved.lean ====
section
/-! DEFINITION. The reserved operation codes (R74, R172): the request is accepted, no event is emitted, ILL is set, PHASE and
VIOL keep their values. The spec gives this effect, so the machine takes it and goes on; that a CLAIM about such a
run is refused (R74, U9) is what `ill = false` says as a premise (Safety.lean; DESIGN CHOICE, log entry 5). -/

namespace Sys2Proof.Machine

/-- A reserved operation code: accepted with an empty list (R74). -/
def Reserved.run (op : BitVec 4) (arg : Byte) (s : State) : Host.Outcome State Fault Refusal :=
  Ops.runRequest op arg [] s

/-- The reserved code `0x0` (R74). -/
def execReserved0 (arg : Byte) (s : State) : Host.Outcome State Fault Refusal := Reserved.run 0x0 arg s

/-- The reserved code `0x9` (R74). -/
def execReserved9 (arg : Byte) (s : State) : Host.Outcome State Fault Refusal := Reserved.run 0x9 arg s

/-- The reserved code `0xA` (R74). -/
def execReservedA (arg : Byte) (s : State) : Host.Outcome State Fault Refusal := Reserved.run 0xA arg s

/-- The reserved code `0xB` (R74). -/
def execReservedB (arg : Byte) (s : State) : Host.Outcome State Fault Refusal := Reserved.run 0xB arg s

/-- The reserved code `0xC` (R74). -/
def execReservedC (arg : Byte) (s : State) : Host.Outcome State Fault Refusal := Reserved.run 0xC arg s

/-- The reserved code `0xD` (R74). -/
def execReservedD (arg : Byte) (s : State) : Host.Outcome State Fault Refusal := Reserved.run 0xD arg s

/-- The reserved code `0xE` (R74). -/
def execReservedE (arg : Byte) (s : State) : Host.Outcome State Fault Refusal := Reserved.run 0xE arg s

/-- The reserved code `0xF` (R74). -/
def execReservedF (arg : Byte) (s : State) : Host.Outcome State Fault Refusal := Reserved.run 0xF arg s

end Sys2Proof.Machine
end

