-- ==== Sys2Proof/Syntax.lean ====
section
/-! DEFINITION. The sixteen requests of the request port, one constructor per row of spec/opcode_table.json (R72, R74).
Every request carries its 8-bit operand field, also where the operation ignores it (R73), because acceptance
writes that field into ARG (R71). -/

namespace Sys2Proof

/-- The requests of LCD4 (R72). There is one format and one length (R75). -/
inductive Instr where
  /-- `0x1aa` CONFIG: make every bus pin an output (R125); the operand is ignored (R73). -/
  | config (arg : Byte)
  /-- `0x2aa` INIT: the initialisation handshake (R127); the operand is ignored. -/
  | init (arg : Byte)
  /-- `0x3cc` WRCMD code: one command nibble, `code & 0xF` (R120). -/
  | wrcmd (code : Byte)
  /-- `0x4vv` WRDATA value: two data nibbles, high first (R121). -/
  | wrdata (value : Byte)
  /-- `0x5aa` CLEAR (R140); the operand is ignored. -/
  | clear (arg : Byte)
  /-- `0x6aa` HOME (R141); the operand is ignored. -/
  | home (arg : Byte)
  /-- `0x7aa` LINE2 (R142); the operand is ignored. -/
  | line2 (arg : Byte)
  /-- `0x8aa` DETACH (R129); the operand is ignored. -/
  | detach (arg : Byte)
  /-- Reserved operation code `0x0` (R74). -/
  | reserved0 (arg : Byte)
  /-- Reserved operation code `0x9` (R74). -/
  | reserved9 (arg : Byte)
  /-- Reserved operation code `0xA` (R74). -/
  | reservedA (arg : Byte)
  /-- Reserved operation code `0xB` (R74). -/
  | reservedB (arg : Byte)
  /-- Reserved operation code `0xC` (R74). -/
  | reservedC (arg : Byte)
  /-- Reserved operation code `0xD` (R74). -/
  | reservedD (arg : Byte)
  /-- Reserved operation code `0xE` (R74). -/
  | reservedE (arg : Byte)
  /-- Reserved operation code `0xF` (R74). -/
  | reservedF (arg : Byte)
deriving DecidableEq, Repr

end Sys2Proof
end

