-- ==== Sys2Proof/Machine/Dispatch.lean ====
section
/-! DEFINITION. The meaning of each request of R72, one arm per constructor. -/

namespace Sys2Proof.Machine

def exec (i : Instr) (s : State) : Host.Outcome State Fault Refusal :=
  match i with
  | .config arg => Sys2Proof.Machine.execConfig arg s
  | .init arg => Sys2Proof.Machine.execInit arg s
  | .wrcmd code => Sys2Proof.Machine.execWrcmd code s
  | .wrdata value => Sys2Proof.Machine.execWrdata value s
  | .clear arg => Sys2Proof.Machine.execClear arg s
  | .home arg => Sys2Proof.Machine.execHome arg s
  | .line2 arg => Sys2Proof.Machine.execLine2 arg s
  | .detach arg => Sys2Proof.Machine.execDetach arg s
  | .reserved0 arg => Sys2Proof.Machine.execReserved0 arg s
  | .reserved9 arg => Sys2Proof.Machine.execReserved9 arg s
  | .reservedA arg => Sys2Proof.Machine.execReservedA arg s
  | .reservedB arg => Sys2Proof.Machine.execReservedB arg s
  | .reservedC arg => Sys2Proof.Machine.execReservedC arg s
  | .reservedD arg => Sys2Proof.Machine.execReservedD arg s
  | .reservedE arg => Sys2Proof.Machine.execReservedE arg s
  | .reservedF arg => Sys2Proof.Machine.execReservedF arg s

end Sys2Proof.Machine
end

