-- ==== Sys2Proof/WellFormed.lean ====
section
/-! DEFINITION. The checks on what is handed to the model as raw numbers. R8: a configuration is well-formed or it is
refused; the refusal says which condition fails. For a request nothing can be ill-formed: every 12-bit word is
accepted (R72 to R74) and the operand's width is its type; what the ASSEMBLER of R84 writes is a narrower form,
checked by `Instr.isAssembled`. -/

namespace Sys2Proof

/-- A configuration as plain numbers: PinIds and nibble codes of any size (R5, R8). -/
structure RawParams where
  d : List Nat
  rs : Nat
  en : Nat
  rw : Option Nat
  rwWriteLevel : Bool
  fselBase : Nat
  setBase : Nat
  clrBase : Nat
  funcset : List Nat
  dispctrl : List Nat
  entry : List Nat
  line1 : List Nat
  minTime : Delays
  cycles : Delays
  clkPeriod : Nat
  msg : List Byte
deriving DecidableEq, Repr

/-- Why a configuration is refused (R8, U14). -/
inductive ConfigError where
  /-- The data lines are not exactly four (R5). -/
  | notFourDataLines
  /-- An assigned PinId is not `< NPINS` (R8). -/
  | pinOutOfRange
  /-- Two lines share a pin (R8). -/
  | pinShared
  /-- A bank base is not a multiple of 4 (R8, R43). -/
  | baseMisaligned
  /-- Two banks overlap (R8). -/
  | banksOverlap
  /-- `T(INIT_SHORT) < T(INIT_LONG)` or `T(CMD) < T(CLEAR)` fails (R7). -/
  | delaysOutOfOrder
  /-- An open command list has not one or two elements (R8). -/
  | commandListLength
  /-- A nibble code is not in `0x0 .. 0xF` (R8). -/
  | codeTooWide
  /-- A class's cycles last less than its `T(c)` (R180). -/
  | cyclesTooShort
deriving DecidableEq, Repr

namespace RawParams

/-- The PinIds of a raw configuration. -/
def pins (r : RawParams) : List Nat := r.d ++ [r.rs, r.en] ++ r.rw.toList

/-- The nibble codes of a raw configuration. -/
def codes (r : RawParams) : List Nat := r.funcset ++ r.dispctrl ++ r.entry ++ r.line1

/-- The typed parameters of a raw configuration whose numbers are in range. -/
def toParams (r : RawParams) (d0 d1 d2 d3 : Nat) : Params where
  bus := { d0 := Fin.ofNat 64 d0, d1 := Fin.ofNat 64 d1, d2 := Fin.ofNat 64 d2, d3 := Fin.ofNat 64 d3,
           rs := Fin.ofNat 64 r.rs, en := Fin.ofNat 64 r.en, rw := r.rw.map (Fin.ofNat 64) }
  rwWriteLevel := r.rwWriteLevel
  fselBase := r.fselBase
  setBase := r.setBase
  clrBase := r.clrBase
  funcset := r.funcset.map (BitVec.ofNat 4)
  dispctrl := r.dispctrl.map (BitVec.ofNat 4)
  entry := r.entry.map (BitVec.ofNat 4)
  line1 := r.line1.map (BitVec.ofNat 4)
  minTime := r.minTime
  cycles := r.cycles
  clkPeriod := r.clkPeriod
  msg := r.msg

/-- The first condition of R8 and R180 that typed parameters break; the last answer stands for the cycle lengths. -/
def firstBroken (p : Params) : ConfigError :=
  if !p.pinsDistinct then .pinShared
  else if !p.basesAligned then .baseMisaligned
  else if !p.banksDisjoint then .banksOverlap
  else if !p.delaysOrdered then .delaysOutOfOrder
  else if !p.listsShort then .commandListLength
  else .cyclesTooShort

/-- The check of R8: a well-formed configuration, or the name of what is wrong with it. -/
def check (r : RawParams) : Except ConfigError Config :=
  match r.d with
  | [d0, d1, d2, d3] =>
    if r.pins.any (fun p => decide (64 ≤ p)) then .error .pinOutOfRange
    else if r.codes.any (fun n => decide (16 ≤ n)) then .error .codeTooWide
    else
      let p := r.toParams d0 d1 d2 d3
      if h : p.wf = true then .ok ⟨p, h⟩ else .error (firstBroken p)
  | _ => .error .notFourDataLines

end RawParams

/-- The operand field of a request. -/
def Instr.arg : Instr → Byte
  | .config a | .init a | .wrcmd a | .wrdata a | .clear a | .home a | .line2 a | .detach a
  | .reserved0 a | .reserved9 a | .reservedA a | .reservedB a | .reservedC a | .reservedD a
  | .reservedE a | .reservedF a => a

/-- A request whose operation code is reserved (R74). -/
def Instr.isReserved : Instr → Bool
  | .reserved0 _ | .reserved9 _ | .reservedA _ | .reservedB _ | .reservedC _ | .reservedD _
  | .reservedE _ | .reservedF _ => true
  | .config _ | .init _ | .wrcmd _ | .wrdata _ | .clear _ | .home _ | .line2 _ | .detach _ => false

/-- A request as the assembler of R84 writes it from a mnemonic: no reserved code, and `0x00` in the operand field of an
operation without operand (R73). -/
def Instr.isAssembled : Instr → Bool
  | .wrcmd _ | .wrdata _ => true
  | .config a | .init a | .clear a | .home a | .line2 a | .detach a => a == 0
  | .reserved0 _ | .reserved9 _ | .reservedA _ | .reservedB _ | .reservedC _ | .reservedD _
  | .reservedE _ | .reservedF _ => false

end Sys2Proof
end

