-- ==== Sys2Proof/Decode.lean ====
section
/-! DEFINITION. The request word (R72 to R75) and its assembler (R84). Decoding is total: every 12-bit word is one of the
sixteen requests, every reserved code under a name of its own (R74); a number that is no 12-bit word is refused by
name. -/

namespace Sys2Proof

/-- The operation code, bits 11:8 of the request word (R72). -/
def requestOp (w : Request) : BitVec 4 := w.extractLsb' 8 4

/-- The operand, bits 7:0 of the request word (R72). -/
def requestArg (w : Request) : Byte := w.extractLsb' 0 8

/-- The sixteen requests in the order of their operation codes, `0x0` first (the table of R72, the reserved codes of R74). -/
def requestTable (arg : Byte) : List Instr :=
  [.reserved0 arg, .config arg, .init arg, .wrcmd arg, .wrdata arg, .clear arg, .home arg, .line2 arg,
   .detach arg, .reserved9 arg, .reservedA arg, .reservedB arg, .reservedC arg, .reservedD arg, .reservedE arg,
   .reservedF arg]

/-- The request an operation code and an operand stand for: the code's entry of the table (R72). -/
def decodeFields (op : BitVec 4) (arg : Byte) : Instr := (requestTable arg)[op.toNat]'op.isLt

/-- The request a word of the request port stands for (R72). -/
def decodeWord (w : Request) : Instr := decodeFields (requestOp w) (requestArg w)

/-- Why a number is no request word. -/
inductive DecodeError where
  /-- The number needs more than twelve bits, and the request word has twelve (R72, R75). -/
  | notTwelveBits
deriving DecidableEq, Repr

/-- The request a number stands for: the one format of R72, or a refusal by name (DESIGN CHOICE, log entry 24). -/
def decodeNat (n : Nat) : Except DecodeError Instr :=
  if n < 4096 then .ok (decodeWord (BitVec.ofNat 12 n)) else .error .notTwelveBits

/-- The operation code of a request (the table of R72). -/
def opcode : Instr → BitVec 4
  | .reserved0 _ => 0x0
  | .config _ => 0x1
  | .init _ => 0x2
  | .wrcmd _ => 0x3
  | .wrdata _ => 0x4
  | .clear _ => 0x5
  | .home _ => 0x6
  | .line2 _ => 0x7
  | .detach _ => 0x8
  | .reserved9 _ => 0x9
  | .reservedA _ => 0xA
  | .reservedB _ => 0xB
  | .reservedC _ => 0xC
  | .reservedD _ => 0xD
  | .reservedE _ => 0xE
  | .reservedF _ => 0xF

/-- The request word of a request: its operation code above its operand (R72). -/
def encode (i : Instr) : Request := opcode i ++ i.arg

/-- One line of the assembler of R84. -/
inductive AsmLine where
  /-- A mnemonic of R72 with its operand. -/
  | op (i : Instr)
  /-- `.word 0xNNN`: a raw request word. -/
  | word (w : Request)
  /-- The pseudo-operation ATTACH. -/
  | attach
  /-- The pseudo-operation WRCHAR v. -/
  | wrchar (v : Byte)
  /-- The pseudo-operation CMD8 b. -/
  | cmd8 (b : Byte)
deriving DecidableEq, Repr

/-- The requests an assembler line stands for (the table of R84). -/
def AsmLine.requests : AsmLine → List Instr
  | .op i => [i]
  | .word w => [decodeWord w]
  | .attach => [.config 0, .init 0]
  | .wrchar v => [.wrdata v]
  | .cmd8 b => [.wrcmd (b >>> 4), .wrcmd (b &&& 0xF)]

/-- The request words of an assembler line (R84). -/
def AsmLine.words : AsmLine → List Request
  | .word w => [w]
  | l => l.requests.map encode

/-- A line the assembler of R84 can be given: a mnemonic line writes no reserved code and no operand where there is none. -/
def AsmLine.wf : AsmLine → Bool
  | .op i => i.isAssembled
  | _ => true

/-- The request read from a word whose bits are numbered as spec/opcode_table.json numbers them: the request port carries
one 12-bit word with bit 0 its least significant bit (R72), so the number is the word. -/
def decodeTableWord (_nbits w : Nat) : Option Instr := (decodeNat w).toOption

end Sys2Proof
end

