-- ==== Sys2Proof/Machine/Clock.lean ====
section
/-! DEFINITION. The clocked form of the sequencer (R14, R20, R71, R104, R180, R190): a request is accepted, and then one step is
one register access or one cycle of a wait, so that a reset (R192), a status read (R19) or another agent's access
(R51, R207) can fall inside an operation. The cycle counts are the reference counts of R212 (DESIGN CHOICE, log
entries 4, 7 and 8). -/

namespace Sys2Proof.Machine

/-- The list an operation code selects (R13: OP is "read by the sequencer to select the event list"). -/
def Clock.program (p : Params) (op : BitVec 4) (arg : Byte) : List MicroOp :=
  if op == 0x1 then Protocol.configList p
  else if op == 0x2 then Protocol.initList p
  else if op == 0x3 then Protocol.wrcmdList arg
  else if op == 0x4 then Protocol.wrdataList arg
  else if op == 0x5 then Display.clearList
  else if op == 0x6 then Display.homeList
  else if op == 0x7 then Display.line2List
  else []

/-- The list of the operation in progress. -/
def Clock.list (s : State) : List MicroOp := Clock.program s.cfg.params s.op s.arg

/-- The element at UPC (R14). -/
def Clock.current (s : State) : Option MicroOp := (Clock.list s)[s.upc]?

/-- The pin event at UPC. -/
def Clock.currentEvent (s : State) : Option PinEvent := (Clock.current s).map (Operands.event s.nib)

/-- DLY is loaded with `N(c)` at the start of a wait (R20, R180), which is the end of the event before it (R55). -/
def Clock.loadDelay (s : State) : State :=
  match Clock.currentEvent s with
  | some (.wait c) => { s with dly := s.cfg.params.cycles.of c }
  | _ => s

/-- The operation ends when UPC equals the length of the list (R14), at the moment its last event completes (R71). -/
def Clock.settle (s : State) : State :=
  if s.upc < (Clock.list s).length then s else Ops.complete s

/-- The block after an event, or an acceptance, has completed. -/
def Clock.proceed (s : State) : State := Clock.settle (Clock.loadDelay s)

/-- One step of a busy block. A wait is one step for each cycle left in DLY, and at least one (R180); `CFG` is a step that
reads and a step that writes (R51, R100); every other event is one step. -/
def Clock.tick (s : State) : State :=
  match Clock.current s with
  | none => Ops.complete s
  | some m =>
    match Operands.event s.nib m with
    | .wait _ =>
      if s.dly ≤ 1 then Clock.proceed (Ops.perform m s) else { s with dly := s.dly - 1 }
    | .cfg l =>
      match s.rdata with
      | some w =>
        Clock.proceed (Ops.record m { s with rdata := none, block := Ops.cfgWrite s.cfg l w s.block })
      | none =>
        match Ops.cfgRead s.cfg l s.block with
        | some w => { s with rdata := some w }
        | none => Clock.proceed (Ops.perform m s)
    | _ => Clock.proceed (Ops.perform m s)

/-- One clock edge with nothing to accept: a busy block ticks, an idle one waits for a request (R182). -/
def Clock.edge (s : State) : State := if s.busy then Clock.tick s else s

/-- Acceptance at a clock edge (R71); an operation with an empty list completes at once. -/
def Clock.accept (i : Instr) (s : State) : State :=
  if s.busy then s else Clock.proceed (Ops.accept (opcode i) i.arg s)

/-- `n` steps of a busy block. -/
def Clock.ticks : Nat → State → State
  | 0, s => s
  | n + 1, s => Clock.ticks n (Clock.tick s)

/-- The cycles an event takes (R212): `CFG` two, a wait `N(c)` and here at least one, everything else one. -/
def Clock.cost (p : Params) : PinEvent → Nat
  | .cfg _ => 2
  | .wait c => max 1 (p.cycles.of c)
  | _ => 1

/-- The cycles of a list of events. -/
def Clock.totalCost (p : Params) (es : List PinEvent) : Nat := (es.map (Clock.cost p)).sum

end Sys2Proof.Machine
end

