-- ==== Sys2Proof/Machine/HostLayer.lean ====
section
/-! DEFINITION. The outside of the block: the host's procedures OPEN, CLOSE, READ, WRITE (43_stream_host.md), the status read
(R19), other users of the register block (R156, R207, R208), and which of the pending moves a step takes (DESIGN CHOICE and
DEDUCED, log entries 12 to 19 and 30). -/

namespace Sys2Proof.Machine

/-! ## The stream (R150 to R154) -/

/-- `CAP = 32` (R8). -/
def HostLayer.cap : Nat := 32

/-- `ROWLEN = 16` (R8). -/
def HostLayer.rowLen : Nat := 16

/-- The effective length of a WRITE (R153, R154). -/
def HostLayer.effectiveLength (len : Nat) : Nat := if len ≤ 1 then 0 else min HostLayer.cap len - 1

/-- The loop of R153 from index `i` on: LINE2 before index 16, and WRDATA for every byte. -/
def HostLayer.writeFrom (i : Nat) : List Byte → List Instr
  | [] => []
  | b :: bs => (if i = HostLayer.rowLen then [Instr.line2 0] else []) ++ Instr.wrdata b :: HostLayer.writeFrom (i + 1) bs

/-- The operations a WRITE presents (R153). -/
def HostLayer.writeOps (bytes : List Byte) : List Instr :=
  HostLayer.writeFrom 0 (bytes.take (HostLayer.effectiveLength bytes.length))

/-- What the host is given back. -/
def HostLayer.giveBack (r : HostResult) (s : State) : State := { s with results := s.results ++ [r] }

/-- OPEN (R150): the guard is tested first, and a rejected open changes nothing else (conflict C9). -/
def HostLayer.openStream (s : State) : State :=
  if s.openGuard then HostLayer.giveBack .openBusy s
  else HostLayer.giveBack .opened { s with openGuard := true, readCursor := 0 }

/-- CLOSE (R151); it answers nothing. -/
def HostLayer.closeStream (s : State) : State := { s with openGuard := false }

/-- How many bytes a READ serves (R152). -/
def HostLayer.readCount (maxBytes : Nat) (s : State) : Nat := min maxBytes (s.cfg.params.msg.length - s.readCursor)

/-- READ maxBytes (R152); on a stream that is not open it is refused (R155). -/
def HostLayer.readStream (maxBytes : Nat) (s : State) : Host.Outcome State Fault Refusal :=
  if s.openGuard then
    .next (HostLayer.giveBack
      (.bytes ((s.cfg.params.msg.drop s.readCursor).take (HostLayer.readCount maxBytes s)))
      { s with readCursor := s.readCursor + HostLayer.readCount maxBytes s })
  else .refused .streamNotOpen

/-- WRITE bytes (R153): the host presents the operations one after the other, nothing of another caller between them
(R157), and then reports the requested length; on a stream that is not open it is refused (R155). -/
def HostLayer.writeStream (bytes : List Byte) (s : State) : Host.Outcome State Fault Refusal :=
  if s.openGuard then
    .next { s with pending := .feed ((HostLayer.writeOps bytes).map encode) bytes.length :: s.pending }
  else .refused .streamNotOpen

/-! ## Other users of the register block (R51, R156, R207, R208) -/

/-- CONFIG is in progress. -/
def HostLayer.configRuns (s : State) : Bool := s.busy && s.op == 0x1

/-- The pins whose field lies in a function-select word, or whose bit lies in a set or clear word (R45 to R47). -/
def HostLayer.inReg (r : Reg) (p : Pin) : Bool :=
  match r with
  | .fsel b => p.val / 10 == b.val
  | .set b => p.val / 32 == b.val
  | .clr b => p.val / 32 == b.val

/-- The write breaks the fourth row of R156: it drives a bus pin's level, changes a bus pin's mode, or writes a
function-select word that holds a bus pin's field while CONFIG runs. -/
def HostLayer.breaksDuty (r : Reg) (v : Word) (s : State) : Bool :=
  s.cfg.params.bus.pins.any fun p =>
    HostLayer.inReg r p &&
      match r with
      | .fsel _ => HostLayer.configRuns s || Ops.mode (Ops.writeReg r v s.block) p != Ops.mode s.block p
      | .set _ => v.getLsbD (p.val % 32)
      | .clr _ => v.getLsbD (p.val % 32)

/-- Another agent's word write: the register block acts as R45 to R47 say whoever writes (R208: the sequencer "would not
know"); a breach of the agent's duty is recorded in the model's own ghost flag. -/
def HostLayer.agentWrite (addr : Nat) (v : Word) (s : State) : Host.Outcome State Fault Refusal :=
  match Ops.locate s.cfg addr with
  | some r =>
    .next { s with block := Ops.writeReg r v s.block, trespass := s.trespass || HostLayer.breaksDuty r v s }
  | none => .refused (.offsetOutsideTheBanks addr)

/-- Another agent's word read: a function-select word gives its content and nothing changes (R45, R50); a set or clear word is
write-only (R48, U7). -/
def HostLayer.agentRead (addr : Nat) (s : State) : Host.Outcome State Fault Refusal :=
  match Ops.locate s.cfg addr with
  | some (.fsel b) => .next (HostLayer.giveBack (.word s.block.fsel[b]) s)
  | some (.set _) => .refused (.readOfWriteOnlyWord addr)
  | some (.clr _) => .refused (.readOfWriteOnlyWord addr)
  | none => .refused (.offsetOutsideTheBanks addr)

/-! ## Which move a step takes -/

/-- A step of the outside: either it is settled here, or a request word stands at the port of the state given. -/
inductive HostAction where
  | settled (o : Host.Outcome State Fault Refusal)
  | present (w : Request) (s : State)

/-- Moves the host makes only when the block is idle: it is blocked inside the call, or held at the port (R71, R157). -/
def HostLayer.waitsForIdle : HostMove → Bool
  | .request _ | .feed _ _ | .openStream | .closeStream | .readStream _ | .writeStream _ => true
  | .clock | .readStatus | .agentRead _ | .agentWrite _ _ | .assertReset _ | .setPace _ => false

/-- The request word at the port, if `req_valid` is 1: the head of the pending moves is a request, or a WRITE in progress
that still has one to present (R70). -/
def HostLayer.reqWord (s : State) : Option Request :=
  match s.pending with
  | .request w :: _ => some w
  | .feed (w :: _) _ :: _ => some w
  | _ => none

/-- The pending moves once the request at the port has been accepted. -/
def HostLayer.afterAcceptance : List HostMove → List HostMove
  | .feed (_ :: ws) len :: rest => .feed ws len :: rest
  | ms => ms.tail

/-- The effect of a move that has left the list of pending moves. -/
def HostLayer.act (m : HostMove) (s : State) : HostAction :=
  match m with
  | .request w => .present w s
  | .clock => .settled (.next (Clock.edge s))
  | .readStatus => .settled (.next (HostLayer.giveBack (.status (Flags.status s)) s))
  | .openStream => .settled (.next (HostLayer.openStream s))
  | .closeStream => .settled (.next (HostLayer.closeStream s))
  | .readStream n => .settled (HostLayer.readStream n s)
  | .writeStream bs => .settled (HostLayer.writeStream bs s)
  | .feed [] len => .settled (.next (HostLayer.giveBack (.wrote len) s))
  | .feed (w :: ws) len => .present w { s with pending := .feed ws len :: s.pending }
  | .agentRead a => .settled (HostLayer.agentRead a s)
  | .agentWrite a v => .settled (HostLayer.agentWrite a v s)
  | .assertReset n => .settled (.next { s with rstIn := some n })
  | .setPace p => .settled (.next { s with pace := p })

/-- A step with `rst` low. A busy block goes on while the host is held; with nothing pending the block is left to itself. The
moves are taken in the order of `pending`: every move behind a WRITE in progress, another agent's access or a status
read too, waits until the WRITE has ended; R156 forbids that only of another caller's operations (DESIGN CHOICE, log
entry 30). -/
def HostLayer.unreset (s : State) : HostAction :=
  match s.pending with
  | [] => .settled (.next (Clock.edge s))
  | m :: rest =>
    if s.busy && HostLayer.waitsForIdle m then .settled (.next (Clock.tick s))
    else HostLayer.act m { s with pending := rest }

/-- A step of the outside: `rst` has priority over everything (R176). -/
def HostLayer.arbitrate (s : State) : HostAction :=
  match s.rstIn with
  | some 0 => .settled (.next (Ops.rst s))
  | some (n + 1) => HostLayer.unreset { s with rstIn := some n }
  | none => HostLayer.unreset s

/-- The state in which a request word stands at the port and the very next step accepts it and runs it to its end. -/
def HostLayer.withRequest (w : Request) (s : State) : State :=
  { s with pending := .request w :: s.pending, busy := false, rstIn := none, pace := .whole }

end Sys2Proof.Machine
end

