-- ==== Sys2Proof/Machine/Observe.lean ====
section
/-! DEFINITION. What a run is seen as: the line view (R23), the frames (level 0, R82), the register accesses (level 2, R26, R77)
and the least duration (R210) of a list of pin events. -/

namespace Sys2Proof.Machine

/-! ## The lines (R23) -/

/-- `lvl(l)` (R23); a line that does not exist has no known level. -/
def Observe.lvl (s : State) (l : Line) : Level :=
  match s.cfg.pin? l with
  | some p => Ops.level s.block p
  | none => .unknown

/-- `out(l)` (R23): the line's pin is configured as an output, `MODE = 0b001` (R21, R45). -/
def Observe.out (s : State) (l : Line) : Bool :=
  match s.cfg.pin? l with
  | some p => Ops.mode s.block p == 1
  | none => false

/-- The bit a known level stands for. -/
def Observe.bit : Level → Option Bool
  | .low => some false
  | .high => some true
  | .unknown => none

/-- The nibble of four levels, bit 3 first, if all are known (R23). -/
def Observe.nibble (d3 d2 d1 d0 : Level) : Option Nibble :=
  match Observe.bit d3, Observe.bit d2, Observe.bit d1, Observe.bit d0 with
  | some b3, some b2, some b1, some b0 =>
    some (BitVec.ofBool b3 ++ BitVec.ofBool b2 ++ BitVec.ofBool b1 ++ BitVec.ofBool b0)
  | _, _, _, _ => none

/-- `bus = lvl(D3):lvl(D2):lvl(D1):lvl(D0)`, defined only when all four levels are known (R23). -/
def Observe.bus (s : State) : Option Nibble :=
  Observe.nibble (Observe.lvl s .d3) (Observe.lvl s .d2) (Observe.lvl s .d1) (Observe.lvl s .d0)

/-- The level of a line has reached it: the pin is an output and has been written since it became one (R23, R49, U10;
DEDUCED, log entry 20). -/
def Observe.determined (s : State) (l : Line) : Bool :=
  match s.cfg.pin? l with
  | some p => Observe.out s l && Ops.shown s.block p
  | none => false

/-- What the display sees on a line, true for the asserted level: `lvl(l)` once the level has reached the line (R23); until then
any value (U10), drawn freely by `draw`, over which a claim quantifies. The one line that need not exist is RW: without
`PIN_RW` it is tied to the write level outside the block (R126). -/
def Observe.seen (draw : Line → Bool) (s : State) (l : Line) : Bool :=
  match s.cfg.pin? l with
  | some _ => if Observe.determined s l then (Observe.bit (Observe.lvl s l)).getD (draw l) else draw l
  | none => s.cfg.params.rwWriteLevel

/-! ## Frames (R82) -/

/-- The levels of the lines while a trace is scanned. -/
structure LineLevels where
  d0 : Level
  d1 : Level
  d2 : Level
  d3 : Level
  rs : Level
  en : Level
  rw : Level
deriving DecidableEq, Repr

/-- No line driven yet. -/
def Observe.noLevels : LineLevels :=
  { d0 := .unknown, d1 := .unknown, d2 := .unknown, d3 := .unknown, rs := .unknown, en := .unknown, rw := .unknown }

/-- `lvl(l) <- x`. -/
def Observe.setLine (v : LineLevels) (l : Line) (x : Level) : LineLevels :=
  match l with
  | .d0 => { v with d0 := x }
  | .d1 => { v with d1 := x }
  | .d2 => { v with d2 := x }
  | .d3 => { v with d3 := x }
  | .rs => { v with rs := x }
  | .en => { v with en := x }
  | .rw => { v with rw := x }

/-- An item of the level-0 view. -/
inductive FrameItem where
  /-- `FRAME(rs, n)`: one enable pulse (R82). -/
  | frame (rs : Bool) (n : Nibble)
  /-- An enable pulse at which a level is unknown: no frame is defined (R82). -/
  | undefinedFrame
  /-- `WAIT(c)` of one of the four long classes (R82). -/
  | wait (c : DelayClass)
deriving DecidableEq, Repr

/-- What the display is presented at `HI(EN)` (R82). -/
def Observe.frameAt (v : LineLevels) : FrameItem :=
  match Observe.bit v.rs, Observe.nibble v.d3 v.d2 v.d1 v.d0 with
  | some r, some n => .frame r n
  | _, _ => .undefinedFrame

/-- The waits the level-0 view shows (R82). -/
def Observe.longWait : DelayClass → Bool
  | .initLong | .initShort | .cmd | .clear => true
  | .pre | .pw | .post => false

/-- The scan of R82, the lines holding `v`. -/
def Observe.framesFrom (v : LineLevels) : List PinEvent → List FrameItem
  | [] => []
  | .hi .en :: es => Observe.frameAt v :: Observe.framesFrom (Observe.setLine v .en .high) es
  | .hi l :: es => Observe.framesFrom (Observe.setLine v l .high) es
  | .lo l :: es => Observe.framesFrom (Observe.setLine v l .low) es
  | .wait c :: es => (if Observe.longWait c then [.wait c] else []) ++ Observe.framesFrom v es
  | .cfg _ :: es => Observe.framesFrom v es

/-- `frames(TRACE)` (R82). -/
def Observe.frames (es : List PinEvent) : List FrameItem := Observe.framesFrom Observe.noLevels es

/-! ## Register accesses (level 2) -/

/-- An item of the level-2 view (00_scope.md section 4.3). -/
inductive Access where
  /-- `MemRead(addr, 4)` returning `v`. -/
  | read (addr : Nat) (v : Word)
  /-- `MemWrite(addr, 4, v)`. -/
  | write (addr : Nat) (v : Word)
  /-- `WAIT(c)`. -/
  | wait (c : DelayClass)
deriving DecidableEq, Repr

/-- The accesses of one pin event on a register block (the table of R77). -/
def Observe.accessesOf (c : Config) (k : RegBlock) (e : PinEvent) : List Access :=
  match e with
  | .cfg l =>
    match c.pin? l, Ops.cfgRead c l k with
    | some p, some w => [.read (Ops.fselAddrOf c p) w, .write (Ops.fselAddrOf c p) (Ops.asOutput p w)]
    | _, _ => []
  | .hi l =>
    match c.pin? l with
    | some p => [.write (Ops.setAddrOf c p) (Ops.pinMask p)]
    | none => []
  | .lo l =>
    match c.pin? l with
    | some p => [.write (Ops.clrAddrOf c p) (Ops.pinMask p)]
    | none => []
  | .wait d => [.wait d]

/-- `accesses(TRACE)` (R26): the accesses of a list of events, the first on the block `k`. R26 makes it a function of the trace,
whose events carry no word, and says not which word a CFG's read returns: here it is the one the events before it leave
on `k`, so that another agent's function-select write between two events is not seen in the words listed (DESIGN CHOICE,
log entry 31). -/
def Observe.accesses (c : Config) (k : RegBlock) : List PinEvent → List Access
  | [] => []
  | e :: es => Observe.accessesOf c k e ++ Observe.accesses c (Ops.applyEvent c e k) es

/-! ## Least duration (R210) -/

/-- The sum of the `T(c)` of a list's waits: a lower bound on its duration (R104, R210). -/
def Observe.leastTime (p : Params) : List PinEvent → Nat
  | [] => 0
  | .wait c :: es => p.minTime.of c + Observe.leastTime p es
  | .cfg _ :: es => Observe.leastTime p es
  | .hi _ :: es => Observe.leastTime p es
  | .lo _ :: es => Observe.leastTime p es

end Sys2Proof.Machine
end

