-- ==== Sys2Proof/Machine/Step.lean ====
section
/-! DEFINITION. One step of the machine: what the outside does, and, where a request word stands at the port of an idle block,
its acceptance. At the grain `whole` the step is the meaning of the decoded request; at the grain `clocked` it is
the acceptance alone, and the steps after it are the operation's accesses and wait cycles. -/

namespace Sys2Proof.Machine

/-- One step (R71, R190). -/
def step (s : State) : Host.Outcome State Fault Refusal :=
  match HostLayer.arbitrate s with
  | .settled o => o
  | .present w s' =>
    match s'.pace with
    | .whole => exec (decodeWord w) s'
    | .clocked => .next (Clock.accept (decodeWord w) s')

/-- `s` with the request word `w` at the port, so that the next step runs it: nothing else is pending before it, the block is
idle and takes requests whole, and no reset is on its way. -/
def State.withFetchWord (s : State) (_nbits w : Nat) : State :=
  HostLayer.withRequest (BitVec.ofNat 12 w) s

end Sys2Proof.Machine
end

