-- ==== Sys2Proof/Safety.lean ====
section
/-! DEFINITION. The words the claims are written in: when a run has kept its contract (R18, R25, R173), the event lists of the
operations as the spec writes them (R105, R106, R120 to R129, R140 to R142), the frames of an operation, and the
invariants of the machine. -/

namespace Sys2Proof

open Machine

/-! ## A run that has kept its contract -/

/-- No request was accepted out of phase (R18), none had a reserved code (R74), and no other agent has broken its duty (R156).
Once this is false nothing may be claimed of the display (R173, U2, U8, U9); the pin events are still those of the rules. -/
def Claims.contractKept (s : State) : Prop := s.viol = false ∧ s.ill = false ∧ s.trespass = false

/-! ## The event lists of the spec -/

/-- `code & 0xF` (R78). -/
def Claims.low (v : Byte) : Nibble := (v &&& 0xF).setWidth 4

/-- `(value >> 4) & 0xF` (R78). -/
def Claims.high (v : Byte) : Nibble := ((v >>> 4) &&& 0xF).setWidth 4

/-- `ev(k)` (R105). -/
def Claims.drive (b : Bool) (l : Line) : PinEvent := if b then .hi l else .lo l

/-- `BUSUPD(n)` (R105). -/
def Claims.busUpd (n : Nibble) : List PinEvent :=
  [Claims.drive (n.getLsbD 0) .d0, Claims.drive (n.getLsbD 1) .d1, Claims.drive (n.getLsbD 2) .d2,
   Claims.drive (n.getLsbD 3) .d3]

/-- `PULSE` (R106). -/
def Claims.pulse : List PinEvent := [.lo .en, .wait .pre, .hi .en, .wait .pw, .lo .en, .wait .post]

/-- `WRCMD(code)`, the nibble given (R120). -/
def Claims.wrcmd (n : Nibble) : List PinEvent := .lo .rs :: (Claims.busUpd n ++ Claims.pulse)

/-- `WRDATA(value)` (R121). -/
def Claims.wrdata (v : Byte) : List PinEvent :=
  .hi .rs :: (Claims.busUpd (Claims.high v) ++ Claims.pulse ++ Claims.busUpd (Claims.low v) ++ Claims.pulse)

/-- `CMDSEQ(codes, c)` (R123). -/
def Claims.cmdSeq : List Nibble → DelayClass → List PinEvent
  | [], c => [.wait c]
  | n :: ns, c => Claims.wrcmd n ++ Claims.cmdSeq ns c

/-- The events CONFIG emits on RW (R125, R126). -/
def Claims.rwEvents (p : Params) : List PinEvent :=
  match p.bus.rw, p.rwWriteLevel with
  | none, _ => []
  | some _, false => [.cfg .rw, .lo .rw]
  | some _, true => [.cfg .rw, .hi .rw]

/-- `CONFIG` (R125). -/
def Claims.config (p : Params) : List PinEvent :=
  [.cfg .d0, .cfg .d1, .cfg .d2, .cfg .d3, .cfg .rs, .cfg .en] ++ Claims.rwEvents p

/-- `INIT` (R127). -/
def Claims.init (p : Params) : List PinEvent :=
  Claims.cmdSeq [0x3] .initLong ++ (Claims.cmdSeq [0x3] .initLong ++ (Claims.cmdSeq [0x3] .initShort ++
  (Claims.cmdSeq [0x2] .cmd ++ (Claims.cmdSeq [0x2] .cmd ++ (Claims.cmdSeq p.funcset .cmd ++
  (Claims.cmdSeq p.dispctrl .cmd ++ (Claims.cmdSeq [0x0, 0x1] .clear ++ (Claims.cmdSeq p.entry .cmd ++
  Claims.cmdSeq p.line1 .cmd))))))))

/-- The event list of a request (the table of R72; empty for DETACH, R129, and a reserved code, R74). -/
def Claims.events (p : Params) : Instr → List PinEvent
  | .config _ => Claims.config p
  | .init _ => Claims.init p
  | .wrcmd code => Claims.wrcmd (Claims.low code)
  | .wrdata value => Claims.wrdata value
  | .clear _ => Claims.cmdSeq [0x0, 0x1] .clear
  | .home _ => Claims.cmdSeq [0x0, 0x2] .cmd
  | .line2 _ => Claims.cmdSeq [0x0, 0xC] .cmd
  | .detach _ => []
  | .reserved0 _ | .reserved9 _ | .reservedA _ | .reservedB _ | .reservedC _ | .reservedD _
  | .reservedE _ | .reservedF _ => []

/-- Two runs of a request that differ in its operand only: the states they reach differ in ARG only. -/
def Claims.sameButArg (i i' : Instr) (s : State) : Prop :=
  ∃ t : State, exec i s = .next { t with arg := i.arg } ∧ exec i' s = .next { t with arg := i'.arg }

/-- The frames of `CMDSEQ(codes, c)` (R123). -/
def Claims.cmdFrames (codes : List Nibble) (c : DelayClass) : List FrameItem :=
  codes.map (FrameItem.frame false) ++ [.wait c]

/-! ## Frames of a step -/

/-- What no request changes: the parameters, the latch of a clocked CFG, the history, the host layer's state, what the host
was given back, and everything that has not arrived yet. -/
def Claims.restKept (s t : State) : Prop :=
  t.cfg = s.cfg ∧ t.rdata = s.rdata ∧ t.history = s.history ∧ t.openGuard = s.openGuard ∧
  t.readCursor = s.readCursor ∧ t.trespass = s.trespass ∧ t.results = s.results ∧ t.pending = s.pending ∧
  t.rstIn = s.rstIn ∧ t.pace = s.pace

/-- Every pin that none of these lines is assigned to keeps its level, and, unless its mode changes, the mark that the level
has reached the line (the model's own, log entry 20). -/
def Claims.levelsKeptBut (ls : List Line) (s t : State) : Prop :=
  ∀ p : Pin, (∀ l ∈ ls, s.cfg.pin? l ≠ some p) →
    Ops.level t.block p = Ops.level s.block p ∧
    (Ops.mode t.block p = Ops.mode s.block p → Ops.shown t.block p = Ops.shown s.block p)

/-- The lines a command or data write drives. -/
def Claims.busLines : List Line := [.d0, .d1, .d2, .d3, .rs, .en]

/-- The contract of R173 is broken by accepting the request in the phase (its table, row by row). -/
def Claims.breaksContract : Instr → Phase → Prop
  | .config _, ph => ph ≠ .detached
  | .init _, ph => ph = .detached
  | .wrcmd _, ph | .wrdata _, ph | .clear _, ph | .home _, ph | .line2 _, ph => ph ≠ .initialized
  | .detach _, ph => ph = .detached
  | .reserved0 _, _ | .reserved9 _, _ | .reservedA _, _ | .reservedB _, _ | .reservedC _, _
  | .reservedD _, _ | .reservedE _, _ | .reservedF _, _ => False

/-- The phase in which a request leaves the block (the last column of 95_test_vectors.md section 2.9). -/
def Claims.endPhase : Instr → Phase → Phase
  | .config _, .detached => .configured
  | .config _, .configured => .configured
  | .config _, .initialized => .initialized
  | .init _, .detached => .detached
  | .init _, .configured => .initialized
  | .init _, .initialized => .initialized
  | .detach _, _ => .detached
  | .wrcmd _, ph | .wrdata _, ph | .clear _, ph | .home _, ph | .line2 _, ph => ph
  | .reserved0 _, ph | .reserved9 _, ph | .reservedA _, ph | .reservedB _, ph | .reservedC _, ph
  | .reservedD _, ph | .reservedE _, ph | .reservedF _, ph => ph

/-- The level of EN after a list of events, EN being low before it. -/
def Claims.enableAfter (es : List PinEvent) : Level :=
  es.foldl (fun x e => if e = .hi .en then .high else if e = .lo .en then .low else x) .low

/-- The number of nibbles in the four open command lists (`k` of R210). -/
def Claims.openNibbles (p : Params) : Nat :=
  p.funcset.length + p.dispctrl.length + p.entry.length + p.line1.length

/-- `T(PRE) + T(PW) + T(POST)` (`P` of R210). -/
def Claims.pulseTime (p : Params) : Nat := p.minTime.pre + p.minTime.pw + p.minTime.post

/-! ## The host's duties (R156, R195, R197) -/

/-- The agent's write keeps to the fourth row of R156: it lands in one of the banks, drives no bus pin, leaves every bus pin's
mode, and touches no function-select word with a bus pin's field while CONFIG runs. -/
def Claims.agentDuty (s : State) (a : Nat) (v : Word) : Prop :=
  (∃ r, a = Ops.addrOf s.cfg r) ∧
  ∀ l p, s.cfg.pin? l = some p →
    (a = Ops.fselAddr s.cfg (p.val / 10) →
      ¬(s.busy = true ∧ s.op = 0x1) ∧ v.extractLsb' (p.val % 10 * 3) 3 = Ops.mode s.block p) ∧
    (a = Ops.setAddr s.cfg (p.val / 32) ∨ a = Ops.clrAddr s.cfg (p.val / 32) → v.getLsbD (p.val % 32) = false)

/-- What the table of R156 asks of the outside for the move it makes in a state: no request out of phase and none with a
reserved code; DETACH with no stream open; OPEN after the attach is complete; READ and WRITE on an open stream. -/
def Claims.duty (s : State) : HostMove → Prop
  | .request w =>
    ¬Claims.breaksContract (decodeWord w) s.phase ∧ (decodeWord w).isReserved = false ∧
      (opcode (decodeWord w) = 0x8 → s.openGuard = false)
  | .feed [] _ => True
  | .feed (w :: _) _ => ¬Claims.breaksContract (decodeWord w) s.phase ∧ (decodeWord w).isReserved = false
  | .openStream => s.phase = .initialized
  | .readStream _ | .writeStream _ => s.openGuard = true
  | .agentRead a => ∃ b : Fin 7, a = Ops.fselAddr s.cfg b
  | .agentWrite a v => Claims.agentDuty s a v
  | .clock | .readStatus | .closeStream | .assertReset _ | .setPace _ => True

/-! ## Invariants -/

/-- Every line of the assignment is an output (R25). -/
def Claims.allOutputs (s : State) : Prop :=
  ∀ l p, s.cfg.pin? l = some p → Ops.mode s.block p = 1

/-- CONFIG is in progress, and the lines whose CFG event has completed are outputs. -/
def Claims.configuredSoFar (s : State) : Prop :=
  s.busy = true → s.op = 0x1 →
    ∀ k l p, k < s.upc → (Claims.config s.cfg.params)[k]? = some (.cfg l) → s.cfg.pin? l = some p →
      Ops.mode s.block p = 1

/-- A word that CFG has read and not yet written back is the word its function-select register still holds. -/
def Claims.latchFresh (s : State) : Prop :=
  ∀ w, s.rdata = some w →
    s.busy = true ∧ s.op = 0x1 ∧
      ∃ l, (Claims.config s.cfg.params)[s.upc]? = some (.cfg l) ∧ Ops.cfgRead s.cfg l s.block = some w

/-- The invariant of R25, "provided no other agent has rewritten the function-select words": outside DETACHED every line of
the assignment is an output. The two further clauses say how far a CONFIG in progress has come. -/
def Claims.busInvariant (s : State) : Prop :=
  s.trespass = false →
    (s.phase ≠ .detached → Claims.allOutputs s) ∧ Claims.configuredSoFar s ∧ Claims.latchFresh s

/-- DLY is 0 unless a wait is in progress (R180), UPC stays within the longest list (R14), and the read cursor stays within the
message (R28). -/
def Claims.countersSound (s : State) : Prop :=
  (s.dly ≠ 0 → s.busy = true ∧ ∃ c, Clock.currentEvent s = some (.wait c)) ∧
  s.upc ≤ 175 ∧ s.readCursor ≤ s.cfg.params.msg.length

end Sys2Proof
end

