-- ==== Sys2Proof/Certificates/Slice0/Obligations.lean ====
section
/-! DEFINITION. The statements for the provers, taken from the numbered rules of the spec. Each docstring names the rule it
formalises; `Sys2Proof/Safety.lean` holds the words they are written in. -/

open Sys2Proof Sys2Proof.Machine

/-! ## The request word -/

/-- R72, R74: a request word and its request determine each other, for every request and every word; the table's numbering of a
word gives the same request. -/
def Obligations.RequestWordRoundTrip : Prop :=
  (∀ i : Instr, decodeWord (encode i) = i) ∧ (∀ w : Request, encode (decodeWord w) = w) ∧
  ∀ (n : Nat) (i : Instr), decodeTableWord n (encode i).toNat = some i

/-- 95_test_vectors.md section 2.8: the words of the spec's decoding table. That the number 0x1000, which is no 12-bit word, is
refused by name is no word of that table: it is the model's choice (DESIGN CHOICE, log entry 24). -/
def Obligations.SampleWordsDecode : Prop :=
  decodeWord 0x100 = .config 0x00 ∧ decodeWord 0x200 = .init 0x00 ∧ decodeWord 0x301 = .wrcmd 0x01 ∧
  decodeWord 0x441 = .wrdata 0x41 ∧ decodeWord 0x500 = .clear 0x00 ∧ decodeWord 0x600 = .home 0x00 ∧
  decodeWord 0x700 = .line2 0x00 ∧ decodeWord 0x800 = .detach 0x00 ∧ decodeWord 0x000 = .reserved0 0x00 ∧
  decodeWord 0x0FF = .reserved0 0xFF ∧
  decodeWord 0x900 = .reserved9 0x00 ∧ decodeWord 0xFFF = .reservedF 0xFF ∧
  decodeNat 0x1000 = .error .notTwelveBits

/-- R84: the expansions of the three pseudo-operations; R81: the two command writes of CMD8 send the high nibble first. -/
def Obligations.PseudoOperationsExpand : Prop :=
  AsmLine.words .attach = [0x100, 0x200] ∧
  (∀ v : Byte, AsmLine.words (.wrchar v) = AsmLine.words (.op (.wrdata v))) ∧
  ∀ (b : Byte) (p : Params) (v : LineLevels),
    AsmLine.words (.cmd8 b) = [encode (.wrcmd (b >>> 4)), encode (.wrcmd (b &&& 0xF))] ∧
    Observe.framesFrom v ((AsmLine.requests (.cmd8 b)).flatMap (Claims.events p)) =
      [.frame false (Claims.high b), .frame false (Claims.low b)]

/-- R73: the operand of an operation without operand is ignored, and WRCMD uses only `arg[3:0]`: runs that differ there reach
states that differ in ARG only; the assembler writes `0x00`. That ARG holds an ignored operand too is the model's reading
of R71 (log entry 10). -/
def Obligations.OperandFieldIgnored : Prop :=
  (∀ (s : State) (a b : Byte), s.busy = false →
    Claims.sameButArg (.config a) (.config b) s ∧ Claims.sameButArg (.init a) (.init b) s ∧
    Claims.sameButArg (.clear a) (.clear b) s ∧ Claims.sameButArg (.home a) (.home b) s ∧
    Claims.sameButArg (.line2 a) (.line2 b) s ∧ Claims.sameButArg (.detach a) (.detach b) s ∧
    (Claims.low a = Claims.low b → Claims.sameButArg (.wrcmd a) (.wrcmd b) s)) ∧
  ∀ a : Byte,
    (Instr.isAssembled (.config a) = true ↔ a = 0) ∧ (Instr.isAssembled (.init a) = true ↔ a = 0) ∧
    (Instr.isAssembled (.clear a) = true ↔ a = 0) ∧ (Instr.isAssembled (.home a) = true ↔ a = 0) ∧
    (Instr.isAssembled (.line2 a) = true ↔ a = 0) ∧ (Instr.isAssembled (.detach a) = true ↔ a = 0)

/-! ## The register block and the pin events -/

/-- R41, R43, R53: every word of the three banks is found at its own offset and nowhere else, and its offset is a multiple of 4,
in every well-formed configuration. -/
def Obligations.RegisterMapOneToOne : Prop :=
  ∀ (c : Config) (r : Reg), Ops.addrOf c r % 4 = 0 ∧ ∀ a : Nat, Ops.locate c a = some r ↔ a = Ops.addrOf c r

/-- 95_test_vectors.md S1: the (address, mask) pairs of HI are pairwise distinct, those of LO too, and no HI pair is a LO pair. -/
def Obligations.BankedAddressesDistinct : Prop :=
  ∀ (c : Config) (p q : Pin),
    ((Ops.setAddrOf c p, Ops.pinMask p) = (Ops.setAddrOf c q, Ops.pinMask q) → p = q) ∧
    ((Ops.clrAddrOf c p, Ops.pinMask p) = (Ops.clrAddrOf c q, Ops.pinMask q) → p = q) ∧
    (Ops.setAddrOf c p, Ops.pinMask p) ≠ (Ops.clrAddrOf c q, Ops.pinMask q)

/-- R46: a write of `v` to a set word asserts the pins whose bit is 1 and has no other effect; the block only ever writes a mask
with the one bit of a pin. -/
def Obligations.SetWordAsserts : Prop :=
  (∀ (b : Fin 2) (v : Word) (k : RegBlock) (p : Pin),
    Ops.level (Ops.writeReg (.set b) v k) p =
      (if p.val / 32 = b.val ∧ v.getLsbD (p.val % 32) = true then .high else Ops.level k p) ∧
    (Ops.writeReg (.set b) v k).fsel = k.fsel) ∧
  ∀ (p : Pin) (i : Nat), i < 32 → ((Ops.pinMask p).getLsbD i = true ↔ i = p.val % 32)

/-- R47: the same for a clear word, which deasserts. -/
def Obligations.ClearWordDeasserts : Prop :=
  (∀ (b : Fin 2) (v : Word) (k : RegBlock) (p : Pin),
    Ops.level (Ops.writeReg (.clr b) v k) p =
      (if p.val / 32 = b.val ∧ v.getLsbD (p.val % 32) = true then .low else Ops.level k p) ∧
    (Ops.writeReg (.clr b) v k).fsel = k.fsel) ∧
  ∀ (p : Pin) (i : Nat), i < 32 → ((Ops.pinMask p).getLsbD i = true ↔ i = p.val % 32)

/-- R50: a write to any word of the block is idempotent: twice leaves what once leaves. -/
def Obligations.WordWritesIdempotent : Prop :=
  ∀ (r : Reg) (v : Word) (k : RegBlock), Ops.writeReg r v (Ops.writeReg r v k) = Ops.writeReg r v k

/-- R100: CFG reads the pin's function-select word and writes it back with the field `0b001`; every other field, bits 31:30 of
every word and every level stay; a second CFG changes nothing more. -/
def Obligations.CfgMakesOnePinAnOutput : Prop :=
  ∀ (c : Config) (l : Line) (p : Pin) (k : RegBlock), c.pin? l = some p →
    (∃ w, Ops.memRead c (Ops.fselAddr c (p.val / 10)) k = some w ∧
      Observe.accessesOf c k (.cfg l) =
        [.read (Ops.fselAddr c (p.val / 10)) w,
         .write (Ops.fselAddr c (p.val / 10))
           ((w &&& ~~~(7#32 <<< (p.val % 10 * 3))) ||| (1#32 <<< (p.val % 10 * 3)))] ∧
      Ops.applyEvent c (.cfg l) k =
        Ops.memWrite c (Ops.fselAddr c (p.val / 10))
          ((w &&& ~~~(7#32 <<< (p.val % 10 * 3))) ||| (1#32 <<< (p.val % 10 * 3))) k) ∧
    Ops.mode (Ops.applyEvent c (.cfg l) k) p = 1 ∧
    (∀ q, q ≠ p → Ops.mode (Ops.applyEvent c (.cfg l) k) q = Ops.mode k q) ∧
    (∀ b : Fin 7, (Ops.applyEvent c (.cfg l) k).fsel[b].extractLsb' 30 2 = k.fsel[b].extractLsb' 30 2) ∧
    (∀ q, Ops.level (Ops.applyEvent c (.cfg l) k) q = Ops.level k q) ∧
    Ops.applyEvent c (.cfg l) (Ops.applyEvent c (.cfg l) k) = Ops.applyEvent c (.cfg l) k

/-- R101: HI is one write of the pin's one-bit mask to its set word, whatever the level was: the pin goes high, no other level
and no mode changes. -/
def Obligations.HiAssertsOnePin : Prop :=
  ∀ (c : Config) (l : Line) (p : Pin) (k : RegBlock), c.pin? l = some p →
    Observe.accessesOf c k (.hi l) = [.write (Ops.setAddr c (p.val / 32)) (1#32 <<< (p.val % 32))] ∧
    Ops.applyEvent c (.hi l) k = Ops.memWrite c (Ops.setAddr c (p.val / 32)) (1#32 <<< (p.val % 32)) k ∧
    Ops.level (Ops.applyEvent c (.hi l) k) p = .high ∧
    (∀ q, q ≠ p → Ops.level (Ops.applyEvent c (.hi l) k) q = Ops.level k q) ∧
    ∀ q, Ops.mode (Ops.applyEvent c (.hi l) k) q = Ops.mode k q

/-- R102: LO, the same with the clear word. -/
def Obligations.LoDeassertsOnePin : Prop :=
  ∀ (c : Config) (l : Line) (p : Pin) (k : RegBlock), c.pin? l = some p →
    Observe.accessesOf c k (.lo l) = [.write (Ops.clrAddr c (p.val / 32)) (1#32 <<< (p.val % 32))] ∧
    Ops.applyEvent c (.lo l) k = Ops.memWrite c (Ops.clrAddr c (p.val / 32)) (1#32 <<< (p.val % 32)) k ∧
    Ops.level (Ops.applyEvent c (.lo l) k) p = .low ∧
    (∀ q, q ≠ p → Ops.level (Ops.applyEvent c (.lo l) k) q = Ops.level k q) ∧
    ∀ q, Ops.mode (Ops.applyEvent c (.lo l) k) q = Ops.mode k q

/-! ## The operations: each completes, with the effect its rule gives -/

/-- R120: WRCMD sends the one nibble `code & 0xF` with RS low and one pulse, adds no wait, sets VIOL when the block is not
INITIALIZED, and leaves RS and EN low and the nibble on the bus. -/
def Obligations.WrcmdSendsOneNibble : Prop :=
  ∀ (s : State) (code : Byte), s.busy = false →
    ∃ t, exec (.wrcmd code) s = .next t ∧
      t.trace = s.trace ++ (.lo .rs :: (Claims.busUpd (Claims.low code) ++ Claims.pulse)) ∧
      (∀ v, Observe.framesFrom v (.lo .rs :: (Claims.busUpd (Claims.low code) ++ Claims.pulse)) =
        [.frame false (Claims.low code)]) ∧
      Observe.lvl t .rs = .low ∧ Observe.lvl t .en = .low ∧ Observe.bus t = some (Claims.low code) ∧
      t.nib = Claims.low code ∧ t.op = 0x3 ∧ t.arg = code ∧ t.dly = 0 ∧ t.busy = false ∧
      (t.viol = true ↔ s.viol = true ∨ s.phase ≠ .initialized) ∧ t.ill = s.ill ∧ t.phase = s.phase ∧
      t.block.fsel = s.block.fsel ∧ Claims.levelsKeptBut Claims.busLines s t ∧ Claims.restKept s t ∧
      encode (.wrcmd code) = 0x3#4 ++ code

/-- R121: WRDATA sends the high nibble and then the low nibble, each with a whole pulse, RS asserted once and left asserted. -/
def Obligations.WrdataSendsTwoNibbles : Prop :=
  ∀ (s : State) (value : Byte), s.busy = false →
    ∃ t, exec (.wrdata value) s = .next t ∧
      t.trace = s.trace ++ (.hi .rs :: (Claims.busUpd (Claims.high value) ++ Claims.pulse ++
        Claims.busUpd (Claims.low value) ++ Claims.pulse)) ∧
      (∀ v, Observe.framesFrom v (.hi .rs :: (Claims.busUpd (Claims.high value) ++ Claims.pulse ++
        Claims.busUpd (Claims.low value) ++ Claims.pulse)) =
        [.frame true (Claims.high value), .frame true (Claims.low value)]) ∧
      Observe.lvl t .rs = .high ∧ Observe.lvl t .en = .low ∧ Observe.bus t = some (Claims.low value) ∧
      t.nib = Claims.low value ∧ t.op = 0x4 ∧ t.arg = value ∧ t.dly = 0 ∧ t.busy = false ∧
      (t.viol = true ↔ s.viol = true ∨ s.phase ≠ .initialized) ∧ t.ill = s.ill ∧ t.phase = s.phase ∧
      t.block.fsel = s.block.fsel ∧ Claims.levelsKeptBut Claims.busLines s t ∧ Claims.restKept s t ∧
      encode (.wrdata value) = 0x4#4 ++ value

/-- R125, R126: CONFIG makes every bus pin an output, in the order of the rule, drives RW alone to its write level, and leaves
every other mode and level; without PIN_RW the display sees RW tied to the write level; no other request has an event on
RW; DETACHED becomes CONFIGURED; VIOL is set when the block was not DETACHED. -/
def Obligations.ConfigMakesBusPinsOutputs : Prop :=
  ∀ (s : State) (arg : Byte), s.busy = false →
    ∃ t, exec (.config arg) s = .next t ∧
      t.trace = s.trace ++ Claims.config s.cfg.params ∧
      (∀ v, Observe.framesFrom v (Claims.config s.cfg.params) = []) ∧
      (∀ l p, s.cfg.pin? l = some p → Ops.mode t.block p = 1) ∧
      (∀ q, (∀ l, s.cfg.pin? l ≠ some q) → Ops.mode t.block q = Ops.mode s.block q) ∧
      (∀ b : Fin 7, t.block.fsel[b].extractLsb' 30 2 = s.block.fsel[b].extractLsb' 30 2) ∧
      Claims.levelsKeptBut [.rw] s t ∧
      (s.cfg.params.bus.rw ≠ none →
        Observe.lvl t .rw = if s.cfg.params.rwWriteLevel then .high else .low) ∧
      (s.cfg.params.bus.rw = none → ∀ draw, Observe.seen draw t .rw = s.cfg.params.rwWriteLevel) ∧
      (∀ i : Instr, opcode i ≠ 0x1 → ∀ e ∈ Claims.events s.cfg.params i, e ≠ .cfg .rw ∧ e ≠ .hi .rw ∧ e ≠ .lo .rw) ∧
      (s.phase = .detached → t.phase = .configured) ∧ (s.phase ≠ .detached → t.phase = s.phase) ∧
      (t.viol = true ↔ s.viol = true ∨ s.phase ≠ .detached) ∧ t.ill = s.ill ∧
      t.op = 0x1 ∧ t.nib = s.nib ∧ t.dly = s.dly ∧ t.busy = false ∧ Claims.restKept s t ∧
      encode (.config arg) = 0x1#4 ++ arg

/-- R127: INIT emits its ten CMDSEQ in the order of the rule; every frame is a command; the block becomes INITIALIZED unless it
was DETACHED, which sets VIOL. -/
def Obligations.InitRunsTheHandshake : Prop :=
  ∀ (s : State) (arg : Byte), s.busy = false →
    ∃ t, exec (.init arg) s = .next t ∧
      t.trace = s.trace ++
        (Claims.cmdSeq [0x3] .initLong ++ Claims.cmdSeq [0x3] .initLong ++ Claims.cmdSeq [0x3] .initShort ++
         Claims.cmdSeq [0x2] .cmd ++ Claims.cmdSeq [0x2] .cmd ++ Claims.cmdSeq s.cfg.params.funcset .cmd ++
         Claims.cmdSeq s.cfg.params.dispctrl .cmd ++ Claims.cmdSeq [0x0, 0x1] .clear ++
         Claims.cmdSeq s.cfg.params.entry .cmd ++ Claims.cmdSeq s.cfg.params.line1 .cmd) ∧
      (∀ v, Observe.framesFrom v (Claims.init s.cfg.params) =
        Claims.cmdFrames [0x3] .initLong ++ Claims.cmdFrames [0x3] .initLong ++ Claims.cmdFrames [0x3] .initShort ++
        Claims.cmdFrames [0x2] .cmd ++ Claims.cmdFrames [0x2] .cmd ++ Claims.cmdFrames s.cfg.params.funcset .cmd ++
        Claims.cmdFrames s.cfg.params.dispctrl .cmd ++ Claims.cmdFrames [0x0, 0x1] .clear ++
        Claims.cmdFrames s.cfg.params.entry .cmd ++ Claims.cmdFrames s.cfg.params.line1 .cmd) ∧
      Observe.lvl t .rs = .low ∧ Observe.lvl t .en = .low ∧
      Observe.bus t = s.cfg.params.line1.getLast? ∧ t.op = 0x2 ∧ t.dly = 0 ∧ t.busy = false ∧
      (s.phase ≠ .detached → t.phase = .initialized) ∧ (s.phase = .detached → t.phase = .detached) ∧
      (t.viol = true ↔ s.viol = true ∨ s.phase = .detached) ∧ t.ill = s.ill ∧
      t.block.fsel = s.block.fsel ∧ Claims.levelsKeptBut Claims.busLines s t ∧ Claims.restKept s t ∧
      encode (.init arg) = 0x2#4 ++ arg

/-- R129: DETACH emits nothing and makes no access; the block is DETACHED; VIOL is set when it was already. -/
def Obligations.DetachEmitsNothing : Prop :=
  ∀ (s : State) (arg : Byte), s.busy = false →
    ∃ t, exec (.detach arg) s = .next t ∧ t.phase = .detached ∧ t.trace = s.trace ∧ t.block = s.block ∧
      (t.viol = true ↔ s.viol = true ∨ s.phase = .detached) ∧ t.ill = s.ill ∧
      t.op = 0x8 ∧ t.nib = s.nib ∧ t.dly = s.dly ∧ t.busy = false ∧
      Claims.restKept s t ∧
      encode (.detach arg) = 0x8#4 ++ arg

/-- R140: CLEAR sends the command nibbles 0x0 and 0x1 and then waits the clear delay once. -/
def Obligations.ClearSendsZeroOne : Prop :=
  ∀ (s : State) (arg : Byte), s.busy = false →
    ∃ t, exec (.clear arg) s = .next t ∧
      t.trace = s.trace ++ (Claims.wrcmd 0x0 ++ Claims.wrcmd 0x1 ++ [.wait .clear]) ∧
      (∀ v, Observe.framesFrom v (Claims.wrcmd 0x0 ++ Claims.wrcmd 0x1 ++ [.wait .clear]) =
        [.frame false 0x0, .frame false 0x1, .wait .clear]) ∧
      Observe.lvl t .rs = .low ∧ Observe.lvl t .en = .low ∧ Observe.bus t = some 0x1 ∧
      t.op = 0x5 ∧ t.nib = 0x1 ∧ t.dly = 0 ∧ t.busy = false ∧
      (t.viol = true ↔ s.viol = true ∨ s.phase ≠ .initialized) ∧ t.ill = s.ill ∧ t.phase = s.phase ∧
      t.block.fsel = s.block.fsel ∧ Claims.levelsKeptBut Claims.busLines s t ∧ Claims.restKept s t ∧
      encode (.clear arg) = 0x5#4 ++ arg

/-- R141: HOME sends 0x0 and 0x2 and then waits the shorter settle delay. -/
def Obligations.HomeSendsZeroTwo : Prop :=
  ∀ (s : State) (arg : Byte), s.busy = false →
    ∃ t, exec (.home arg) s = .next t ∧
      t.trace = s.trace ++ (Claims.wrcmd 0x0 ++ Claims.wrcmd 0x2 ++ [.wait .cmd]) ∧
      (∀ v, Observe.framesFrom v (Claims.wrcmd 0x0 ++ Claims.wrcmd 0x2 ++ [.wait .cmd]) =
        [.frame false 0x0, .frame false 0x2, .wait .cmd]) ∧
      Observe.lvl t .rs = .low ∧ Observe.lvl t .en = .low ∧ Observe.bus t = some 0x2 ∧
      t.op = 0x6 ∧ t.nib = 0x2 ∧ t.dly = 0 ∧ t.busy = false ∧
      (t.viol = true ↔ s.viol = true ∨ s.phase ≠ .initialized) ∧ t.ill = s.ill ∧ t.phase = s.phase ∧
      t.block.fsel = s.block.fsel ∧ Claims.levelsKeptBut Claims.busLines s t ∧ Claims.restKept s t ∧
      encode (.home arg) = 0x6#4 ++ arg

/-- R142: LINE2 sends 0x0 and 0xC, the source's literal, and then waits the shorter settle delay. -/
def Obligations.Line2SendsZeroTwelve : Prop :=
  ∀ (s : State) (arg : Byte), s.busy = false →
    ∃ t, exec (.line2 arg) s = .next t ∧
      t.trace = s.trace ++ (Claims.wrcmd 0x0 ++ Claims.wrcmd 0xC ++ [.wait .cmd]) ∧
      (∀ v, Observe.framesFrom v (Claims.wrcmd 0x0 ++ Claims.wrcmd 0xC ++ [.wait .cmd]) =
        [.frame false 0x0, .frame false 0xC, .wait .cmd]) ∧
      Observe.lvl t .rs = .low ∧ Observe.lvl t .en = .low ∧ Observe.bus t = some 0xC ∧
      t.op = 0x7 ∧ t.nib = 0xC ∧ t.dly = 0 ∧ t.busy = false ∧
      (t.viol = true ↔ s.viol = true ∨ s.phase ≠ .initialized) ∧ t.ill = s.ill ∧ t.phase = s.phase ∧
      t.block.fsel = s.block.fsel ∧ Claims.levelsKeptBut Claims.busLines s t ∧ Claims.restKept s t ∧
      encode (.line2 arg) = 0x7#4 ++ arg

/-- R74, R172: each of the eight reserved codes is accepted with an empty event list: ILL is set, PHASE and VIOL stay, nothing
is emitted and the block is ready for the next request. -/
def Obligations.ReservedCodesOnlySetIll : Prop :=
  ∀ (s : State) (arg : Byte) (i : Instr), s.busy = false →
    i ∈ [Instr.reserved0 arg, .reserved9 arg, .reservedA arg, .reservedB arg, .reservedC arg, .reservedD arg,
      .reservedE arg, .reservedF arg] →
    ∃ t, exec i s = .next t ∧ t.ill = true ∧ t.viol = s.viol ∧ t.phase = s.phase ∧ t.trace = s.trace ∧
      t.block = s.block ∧ t.nib = s.nib ∧ t.dly = s.dly ∧
      t.busy = false ∧ Claims.restKept s t

/-- R71, R122, R174: no request can fail, whatever the state; one presented to a busy block has no effect. -/
def Obligations.NoRequestCanFail : Prop :=
  ∀ (i : Instr) (s : State), (∃ t, exec i s = .next t) ∧ (s.busy = true → exec i s = .next s)

/-- R173: the phase check of acceptance, and R74's flag, for every request in every phase; OP and ARG hold the request, the
requests whose operand is ignored and the reserved ones included (the model's reading of R71, log entry 10). -/
def Obligations.AcceptanceFlags : Prop :=
  ∀ (i : Instr) (s : State), s.busy = false →
    ∃ t, exec i s = .next t ∧ (t.viol = true ↔ s.viol = true ∨ Claims.breaksContract i s.phase) ∧
      (t.ill = true ↔ s.ill = true ∨ i.isReserved = true) ∧ t.op = opcode i ∧ t.arg = i.arg

/-- R16: `PHASE` is written at the completion of CONFIG, INIT and DETACH and by nothing else: the phase in which every request
leaves the block, from every phase. -/
def Obligations.PhaseAfterEachRequest : Prop :=
  ∀ (i : Instr) (s : State), s.busy = false → ∃ t, exec i s = .next t ∧ t.phase = Claims.endPhase i s.phase

/-- What a request leaves alone (R60, R73, R103): everything outside the block; every level but those of the lines it drives
(CONFIG: RW alone; DETACH and the reserved codes: none), and, where the pin's mode stays, what has reached its line (log
entry 20); every function-select word but CONFIG's; NIB and DLY where no nibble is placed and no wait is made; ILL but
for a reserved code. -/
def Obligations.RequestFrame : Prop :=
  ∀ (i : Instr) (s t : State), exec i s = .next t →
    Claims.restKept s t ∧
    (opcode i ≠ 0x1 → t.block.fsel = s.block.fsel) ∧
    (opcode i = 0x1 → Claims.levelsKeptBut [.rw] s t) ∧
    (opcode i ≠ 0x1 → Claims.levelsKeptBut Claims.busLines s t) ∧
    (i.isReserved = true ∨ opcode i = 0x8 → t.block = s.block ∧ t.trace = s.trace) ∧
    (i.isReserved = true ∨ opcode i = 0x8 ∨ opcode i = 0x1 → t.nib = s.nib ∧ t.dly = s.dly) ∧
    (i.isReserved = false → t.ill = s.ill)

/-- CONFIG leaves every function-select word that holds no bus pin's field, whole, and in the others every other field
(R21, R60, R100). -/
def Obligations.ConfigFrame : Prop :=
  ∀ (s t : State) (arg : Byte), exec (.config arg) s = .next t →
    (∀ b : Fin 7, (∀ l p, s.cfg.pin? l = some p → p.val / 10 ≠ b.val) → t.block.fsel[b] = s.block.fsel[b]) ∧
    ∀ q, (∀ l, s.cfg.pin? l ≠ some q) → Ops.mode t.block q = Ops.mode s.block q

/-! ## Event lists -/

/-- R32, R58, R120 to R142: the events a request adds to TRACE are the fixed list of its rule, a function of the request and the
configuration alone: not of the phase, the flags, NIB or the pins; UPC is left at the list's length (the model's reading of
R14, log entry 9). -/
def Obligations.EventListIsFixed : Prop :=
  ∀ (i : Instr) (s : State), s.busy = false →
    ∃ t, exec i s = .next t ∧ t.trace = s.trace ++ Claims.events s.cfg.params i ∧
      t.upc = (Claims.events s.cfg.params i).length

/-- R106: every assertion of EN in every operation's list is the middle of a whole pulse. -/
def Obligations.EveryAssertionOfEnIsAPulse : Prop :=
  ∀ (p : Params) (i : Instr) (as bs : List PinEvent), Claims.events p i = as ++ .hi .en :: bs →
    ∃ as' bs', as = as' ++ [.lo .en, .wait .pre] ∧ bs = [.wait .pw, .lo .en, .wait .post] ++ bs'

/-- R107 (c), R201: EN being low when the operation starts, it is low whenever RS or a data line is driven, and low at the end. -/
def Obligations.BusChangesOnlyWhileEnIsLow : Prop :=
  ∀ (p : Params) (i : Instr),
    (∀ (as bs : List PinEvent) (l : Line), l ≠ .en →
      (Claims.events p i = as ++ .hi l :: bs ∨ Claims.events p i = as ++ .lo l :: bs) →
      Claims.enableAfter as = .low) ∧
    Claims.enableAfter (Claims.events p i) = .low

/-- R14, R127: the lengths of the event lists; none is longer than 175 in a well-formed configuration. -/
def Obligations.EventListLengths : Prop :=
  ∀ (c : Config) (a : Byte),
    (Claims.events c.params (.config a)).length = (if c.params.bus.rw = none then 6 else 8) ∧
    (Claims.events c.params (.init a)).length = 87 + 11 * Claims.openNibbles c.params ∧
    (Claims.events c.params (.wrcmd a)).length = 11 ∧ (Claims.events c.params (.wrdata a)).length = 21 ∧
    (Claims.events c.params (.clear a)).length = 23 ∧ (Claims.events c.params (.home a)).length = 23 ∧
    (Claims.events c.params (.line2 a)).length = 23 ∧ (Claims.events c.params (.detach a)).length = 0 ∧
    ∀ i : Instr, (Claims.events c.params i).length ≤ 175

/-- R210: the least duration of each operation, as the sum of its waits. -/
def Obligations.LeastDurations : Prop :=
  ∀ (p : Params) (a : Byte),
    Observe.leastTime p (Claims.events p (.config a)) = 0 ∧
    Observe.leastTime p (Claims.events p (.detach a)) = 0 ∧
    Observe.leastTime p (Claims.events p (.wrcmd a)) = Claims.pulseTime p ∧
    Observe.leastTime p (Claims.events p (.wrdata a)) = 2 * Claims.pulseTime p ∧
    Observe.leastTime p (Claims.events p (.clear a)) = 2 * Claims.pulseTime p + p.minTime.clear ∧
    Observe.leastTime p (Claims.events p (.home a)) = 2 * Claims.pulseTime p + p.minTime.cmd ∧
    Observe.leastTime p (Claims.events p (.line2 a)) = 2 * Claims.pulseTime p + p.minTime.cmd ∧
    Observe.leastTime p (Claims.events p (.init a)) =
      (7 + Claims.openNibbles p) * Claims.pulseTime p + 2 * p.minTime.initLong + p.minTime.initShort +
        6 * p.minTime.cmd + p.minTime.clear

/-! ## The clocked sequencer -/

/-- R71: what acceptance at a clock edge does, and when the operation is over at once. -/
def Obligations.AcceptanceAtAnEdge : Prop :=
  ∀ (i : Instr) (s : State), s.busy = false →
    (Clock.accept i s).op = opcode i ∧ (Clock.accept i s).arg = i.arg ∧ (Clock.accept i s).upc = 0 ∧
    (Clock.accept i s).trace = s.trace ∧ (Clock.accept i s).block = s.block ∧
    ((Clock.accept i s).busy = true ↔ Claims.events s.cfg.params i ≠ []) ∧
    ((Clock.accept i s).viol = true ↔ s.viol = true ∨ Claims.breaksContract i s.phase)

/-- R14, R71, R104, R180, R212: accepting a request and letting the block run, one access or one cycle of a wait a step, for
exactly the cycles of its list, reaches the state that the request run whole reaches. That CFG is two steps and a wait
at least one is the model's choice (log entries 7 and 8). -/
def Obligations.ClockedRunIsTheOperation : Prop :=
  ∀ (i : Instr) (s : State), s.busy = false → s.rdata = none →
    exec i s =
      .next (Clock.ticks (Clock.totalCost s.cfg.params (Claims.events s.cfg.params i)) (Clock.accept i s))

/-- R14, R26: a step of a busy block either completes one event, the one at UPC, adding it to TRACE and one to UPC, or adds
nothing; it never skips, repeats or reorders. -/
def Obligations.TickEmitsTheEventAtUpc : Prop :=
  ∀ s : State, s.busy = true →
    ((Clock.tick s).trace = s.trace ∧ (Clock.tick s).upc = s.upc) ∨
    ∃ e, Clock.currentEvent s = some e ∧ (Clock.tick s).trace = s.trace ++ [e] ∧ (Clock.tick s).upc = s.upc + 1

/-- R104, R180: during a wait of class `c` each step takes one from DLY and touches no line, and the event completes when DLY
reaches 0. That a wait with DLY = 0 takes one step, where R104's loop takes no cycle, is the model's choice (DESIGN
CHOICE, log entry 8). -/
def Obligations.WaitCountsDown : Prop :=
  ∀ (s : State) (c : DelayClass), s.busy = true → Clock.currentEvent s = some (.wait c) →
    (Clock.tick s).block = s.block ∧
    (2 ≤ s.dly → (Clock.tick s).dly = s.dly - 1 ∧ (Clock.tick s).upc = s.upc ∧ (Clock.tick s).trace = s.trace) ∧
    (s.dly ≤ 1 → (Clock.tick s).upc = s.upc + 1 ∧ (Clock.tick s).trace = s.trace ++ [.wait c])

/-- R51, R207: in a clocked CONFIG, another agent's write to the function-select word that CFG has read and not yet written back
is lost: the write-back puts the word read, with the pin made an output, over it. -/
def Obligations.WriteDuringCfgIsLost : Prop :=
  ∀ (s : State) (l : Line) (p : Pin) (w v : Word) (rest : List HostMove), s.busy = true →
    Clock.currentEvent s = some (.cfg l) → s.cfg.pin? l = some p → s.rdata = some w → s.rstIn = none →
    s.pending = .agentWrite (Ops.fselAddr s.cfg (p.val / 10)) v :: rest →
    ∃ t, step s = .next t ∧ Ops.memRead t.cfg (Ops.fselAddr t.cfg (p.val / 10)) t.block = some v ∧
      Ops.memRead t.cfg (Ops.fselAddr t.cfg (p.val / 10)) (Clock.tick t).block = some (Ops.asOutput p w)

/-! ## The step -/

/-- R71: with `rst` low, an idle block takes the request word at the port: at the grain `whole` the step is the decoded
request's meaning, at the grain `clocked` its acceptance; around it only the word leaves the pending moves and the
reset countdown goes down by one. The grain, the pending moves and the countdown are the model's own (log entries 4, 13
and 16). -/
def Obligations.StepRunsTheDecodedRequest : Prop :=
  ∀ (s : State) (w : Request), s.rstIn ≠ some 0 → s.busy = false → HostLayer.reqWord s = some w →
    (s.pace = .whole → step s = exec (decodeWord w)
      { s with pending := HostLayer.afterAcceptance s.pending, rstIn := s.rstIn.map (· - 1) }) ∧
    (s.pace = .clocked → step s = .next (Clock.accept (decodeWord w)
      { s with pending := HostLayer.afterAcceptance s.pending, rstIn := s.rstIn.map (· - 1) }))

/-- The word `withFetchWord` places is the one the very next step runs (how a request comes to the port is the model's own, log
entry 13). -/
def Obligations.PlacedWordRunsNext : Prop :=
  ∀ (s : State) (n w : Nat) (i : Instr), decodeTableWord n w = some i →
    step (s.withFetchWord n w) = exec i { s with busy := false, rstIn := none, pace := .whole }

/-- R14, R71, R104: with `rst` low a busy block goes on with its operation: the step with nothing presented, or with something
the host must hold until the block is idle (a request, a stream procedure), is `Clock.tick` with the reset countdown one
lower (the model's own, log entry 16), and so is the step in which the outside lets the clock pass. R71: a request
presented meanwhile is not accepted and has no effect: the step is the one with nothing presented, and the request is
still there. -/
def Obligations.BusyBlockHoldsTheRequest : Prop :=
  ∀ s : State, s.busy = true → s.rstIn ≠ some 0 →
    ((s.pending = [] ∨ HostLayer.reqWord s ≠ none ∨
        ∃ rest, s.pending = .openStream :: rest ∨ s.pending = .closeStream :: rest ∨
          (∃ n, s.pending = .readStream n :: rest) ∨ (∃ bytes, s.pending = .writeStream bytes :: rest) ∨
          ∃ len, s.pending = .feed [] len :: rest) →
      step s = .next (Clock.tick { s with rstIn := s.rstIn.map (· - 1) })) ∧
    (∀ rest, s.pending = .clock :: rest →
      step s = .next (Clock.tick { s with pending := rest, rstIn := s.rstIn.map (· - 1) })) ∧
    ∀ w, HostLayer.reqWord s = some w →
      ∃ t : State, step s = .next t ∧ t.pending = s.pending ∧
        step { s with pending := [] } = .next { t with pending := [] }

/-- R33, R190 to R193: what a reset during a run leaves: the sequencer's and the host layer's reset values, an empty TRACE with
the events kept in the history (the model's own, log entry 15), and the register block as it was. -/
def Obligations.ResetInARun : Prop :=
  ∀ s : State, s.rstIn = some 0 →
    ∃ t, step s = .next t ∧ t.phase = .detached ∧ t.busy = false ∧ t.ill = false ∧ t.viol = false ∧
      t.op = 0 ∧ t.arg = 0 ∧ t.nib = 0 ∧ t.upc = 0 ∧ t.dly = 0 ∧ t.trace = [] ∧
      t.openGuard = false ∧ t.readCursor = 0 ∧ t.block = s.block ∧ t.history = s.history ++ s.trace ∧
      Flags.status t = 0x00 ∧ t.cfg = s.cfg

/-- R33: the state after reset: the values of the rule's table, unknown levels, and a block that is idle and can take a
request. -/
def Obligations.StateAfterReset : Prop :=
  State.reset.phase = .detached ∧ State.reset.busy = false ∧ State.reset.ill = false ∧ State.reset.viol = false ∧
  State.reset.op = 0 ∧ State.reset.arg = 0 ∧ State.reset.nib = 0 ∧ State.reset.upc = 0 ∧ State.reset.dly = 0 ∧
  State.reset.trace = [] ∧ (∀ p, Ops.level State.reset.block p = .unknown) ∧ State.reset.openGuard = false ∧
  State.reset.readCursor = 0 ∧ Flags.reqReady State.reset = true ∧ Flags.status State.reset = 0x00

/-- R19: the bits of STATUS, and that reading it changes nothing but what the host has been given (the list of answers is the
model's own, log entry 28). -/
def Obligations.StatusWord : Prop :=
  (∀ s : State, ((Flags.status s).getLsbD 0 = true ↔ s.busy = true) ∧
    ((Flags.status s).extractLsb' 1 2 = 0 ↔ s.phase = .detached) ∧
    ((Flags.status s).extractLsb' 1 2 = 1 ↔ s.phase = .configured) ∧
    ((Flags.status s).extractLsb' 1 2 = 2 ↔ s.phase = .initialized) ∧
    ((Flags.status s).getLsbD 3 = true ↔ s.ill = true) ∧ (Flags.status s).extractLsb' 4 4 = 0) ∧
  ∀ (s : State) (rest : List HostMove), s.rstIn = none → s.pending = .readStatus :: rest →
    step s = .next { s with pending := rest, results := s.results ++ [.status (Flags.status s)] }

/-! ## Invariants and whole-machine rules -/

/-- R25: every step keeps the invariant that outside DETACHED every line of the assignment is an output, "provided no other
agent has rewritten the function-select words" (the flag `trespass` is the model's own, log entry 12). -/
def Obligations.BusInvariantKept : Prop :=
  ∀ s t : State, Claims.busInvariant s → step s = .next t → Claims.busInvariant t

/-- R14, R28, R180: every step keeps DLY 0 outside a wait, UPC within the longest list, the read cursor within the message. -/
def Obligations.CountersStaySound : Prop :=
  ∀ s t : State, Claims.countersSound s → step s = .next t → Claims.countersSound t

/-- Both invariants hold after reset; and with nothing pending, as the model's own field has it at reset (log entry 27), a step
leaves the state. -/
def Obligations.InvariantsHoldAtReset : Prop :=
  Claims.busInvariant State.reset ∧ Claims.countersSound State.reset ∧ step State.reset = .next State.reset

/-- R60, R103: while no other agent has broken its duty (the model's own flag `trespass`, log entry 12; R25's invariant is
`BusInvariantKept`), no step changes the level or the mode of a pin outside the bus assignment, or what has reached its line
(log entry 20), unless another agent writes a word in that step. -/
def Obligations.OutsidePinsNeverTouched : Prop :=
  ∀ s t : State, Claims.busInvariant s → s.trespass = false → step s = .next t →
    (∀ a v rest, s.pending ≠ .agentWrite a v :: rest) →
    ∀ q : Pin, (∀ l, s.cfg.pin? l ≠ some q) →
      Ops.level t.block q = Ops.level s.block q ∧ Ops.mode t.block q = Ops.mode s.block q ∧
      Ops.shown t.block q = Ops.shown s.block q

/-- R156, R173, R174, R195, R197: while the outside keeps to its duties, no step stops and the contract stays kept: VIOL, ILL and
the model's own flag `trespass` (log entry 12) stay 0. A reset keeps it too. -/
def Obligations.DutifulHostKeepsTheContract : Prop :=
  ∀ s : State, Claims.contractKept s → (∀ m rest, s.pending = m :: rest → Claims.duty s m) →
    ∃ t, step s = .next t ∧ Claims.contractKept t

/-- R17, R18: ILL and VIOL are never cleared but by reset. -/
def Obligations.StickyFlagsStay : Prop :=
  ∀ s t : State, step s = .next t → s.rstIn ≠ some 0 →
    (s.ill = true → t.ill = true) ∧ (s.viol = true → t.viol = true)

/-- R26: TRACE only grows at its end, but for a reset; the history (the model's own, log entry 15) stays. -/
def Obligations.TraceOnlyGrows : Prop :=
  ∀ s t : State, step s = .next t → s.rstIn ≠ some 0 →
    ∃ es, t.trace = s.trace ++ es ∧ t.history = s.history

/-- R32: no step changes a parameter. -/
def Obligations.ParametersNeverChange : Prop :=
  ∀ s t : State, step s = .next t → t.cfg = s.cfg

/-- R174: no step faults, and a step is refused only where the spec gives the move of the outside no meaning: READ or WRITE
without an open stream (R155), another agent's read of a write-only word (R48) or access outside the banks (R53). The names
of the refusals are the model's own (log entries 18 and 19). -/
def Obligations.OnlyOutsideMovesAreRefused : Prop :=
  ∀ s : State, (∃ t, step s = .next t) ∨
    (s.rstIn ≠ some 0 ∧ ∃ m rest, s.pending = m :: rest ∧
      ((s.openGuard = false ∧ s.busy = false ∧ step s = .refused .streamNotOpen ∧
          ((∃ n, m = .readStream n) ∨ ∃ bs, m = .writeStream bs)) ∨
        (∃ a, m = .agentRead a ∧ step s = .refused (.readOfWriteOnlyWord a) ∧
          ∃ b : Fin 2, a = Ops.setAddr s.cfg b ∨ a = Ops.clrAddr s.cfg b) ∨
        (∃ a, (m = .agentRead a ∨ ∃ v, m = .agentWrite a v) ∧ step s = .refused (.offsetOutsideTheBanks a) ∧
          ∀ r : Reg, a ≠ Ops.addrOf s.cfg r)))

/-! ## The host layer and other users of the register block -/

/-- R150, R170: OPEN answers Busy while a stream is open and changes nothing else; otherwise it opens and rewinds the cursor.
The list of answers is the model's own (log entry 28). -/
def Obligations.OpenRejectsSecond : Prop :=
  ∀ (s : State) (rest : List HostMove), s.busy = false → s.rstIn = none → s.pending = .openStream :: rest →
    (s.openGuard = true → step s = .next { s with pending := rest, results := s.results ++ [.openBusy] }) ∧
    (s.openGuard = false → step s = .next
      { s with pending := rest, results := s.results ++ [.opened], openGuard := true, readCursor := 0 })

/-- R151: CLOSE releases the guard and does nothing else; with no stream open it leaves the guard released. -/
def Obligations.CloseReleasesTheGuard : Prop :=
  ∀ (s : State) (rest : List HostMove), s.busy = false → s.rstIn = none → s.pending = .closeStream :: rest →
    step s = .next { s with pending := rest, openGuard := false }

/-- R152: READ serves `min(maxBytes, L - READ_CURSOR)` bytes of the message from the cursor, advances the cursor by as many, and
serves none once the cursor is at the end. The list of answers is the model's own (log entry 28). -/
def Obligations.ReadServesTheMessage : Prop :=
  ∀ (s : State) (n : Nat) (rest : List HostMove), s.busy = false → s.rstIn = none → s.openGuard = true →
    s.readCursor ≤ s.cfg.params.msg.length → s.pending = .readStream n :: rest →
    ∃ bs : List Byte,
      step s = .next { s with pending := rest, readCursor := s.readCursor + bs.length,
                              results := s.results ++ [.bytes bs] } ∧
      bs.length = min n (s.cfg.params.msg.length - s.readCursor) ∧
      (∀ i, i < bs.length → bs[i]? = s.cfg.params.msg[s.readCursor + i]?) ∧
      (s.readCursor = s.cfg.params.msg.length → bs = [])

/-- R153, R154: the operations a WRITE presents: WRDATA of each byte below the effective length, in order, and one LINE2 between
index 15 and index 16 when the effective length exceeds 16. -/
def Obligations.WriteOperations : Prop :=
  ∀ bytes : List Byte,
    (bytes.length ≤ 1 → HostLayer.writeOps bytes = []) ∧
    (2 ≤ bytes.length → min 32 bytes.length - 1 ≤ 16 →
      HostLayer.writeOps bytes = (bytes.take (min 32 bytes.length - 1)).map Instr.wrdata) ∧
    (2 ≤ bytes.length → 17 ≤ min 32 bytes.length - 1 →
      HostLayer.writeOps bytes = (bytes.take 16).map Instr.wrdata ++ [.line2 0] ++
        ((bytes.take (min 32 bytes.length - 1)).drop 16).map Instr.wrdata)

/-- R154, R210: the effective length of a WRITE, and the least duration and the frames of the operations it presents: two frames
and two pulses a character, and LINE2's when there are at least 17. -/
def Obligations.WriteLeastDuration : Prop :=
  ∀ (p : Params) (bytes : List Byte) (eff : Nat), eff = (if bytes.length ≤ 1 then 0 else min 32 bytes.length - 1) →
    HostLayer.effectiveLength bytes.length = eff ∧ eff ≤ 31 ∧
    Observe.leastTime p ((HostLayer.writeOps bytes).flatMap (Claims.events p)) =
      2 * eff * Claims.pulseTime p + (if 17 ≤ eff then 2 * Claims.pulseTime p + p.minTime.cmd else 0) ∧
    ((HostLayer.writeOps bytes).flatMap (Claims.events p)).count (.hi .en) =
      2 * eff + (if 17 ≤ eff then 2 else 0)

/-- R153, R157: a WRITE on an open stream, the block idle and taking requests whole (nothing is said here of a WRITE at the
grain clocked): after one step for each of its operations and two more (the model's own count, log entry 14), TRACE has
grown by exactly the operations' events, and the host has been told the requested length. That the moves behind the WRITE
wait until it has ended is the model's choice (DESIGN CHOICE, log entry 30). -/
def Obligations.WriteRunsToItsEnd : Prop :=
  ∀ (s : State) (bytes : List Byte) (rest : List HostMove), s.busy = false → s.rstIn = none → s.pace = .whole →
    s.openGuard = true → s.pending = .writeStream bytes :: rest →
    ∃ t, Sys2Proof.core.run ((HostLayer.writeOps bytes).length + 2) s = .next t ∧
      t.trace = s.trace ++ (HostLayer.writeOps bytes).flatMap (Claims.events s.cfg.params) ∧
      t.results = s.results ++ [.wrote bytes.length] ∧ t.pending = rest ∧ t.busy = false ∧
      t.openGuard = true ∧ t.readCursor = s.readCursor ∧ t.phase = s.phase

/-- R155: READ and WRITE on a stream that is not open are refused. -/
def Obligations.UnopenedStreamRefused : Prop :=
  ∀ (s : State) (n : Nat) (bytes : List Byte) (rest : List HostMove), s.busy = false → s.rstIn = none →
    s.openGuard = false →
    (s.pending = .readStream n :: rest → step s = .refused .streamNotOpen) ∧
    (s.pending = .writeStream bytes :: rest → step s = .refused .streamNotOpen)

/-- R45, R48, R50: another agent's read of a function-select word gives the word's content and has no side effect; of a set or
clear word it is refused (U7). -/
def Obligations.AgentReads : Prop :=
  ∀ (s : State) (rest : List HostMove), s.rstIn = none →
    (∀ b : Fin 7, s.pending = .agentRead (Ops.fselAddr s.cfg b) :: rest →
      step s = .next { s with pending := rest, results := s.results ++ [.word s.block.fsel[b]] }) ∧
    ∀ b : Fin 2,
      (s.pending = .agentRead (Ops.setAddr s.cfg b) :: rest →
        step s = .refused (.readOfWriteOnlyWord (Ops.setAddr s.cfg b))) ∧
      (s.pending = .agentRead (Ops.clrAddr s.cfg b) :: rest →
        step s = .refused (.readOfWriteOnlyWord (Ops.clrAddr s.cfg b)))

/-- R156, R207, R208: another agent's word write acts on the register block and on nothing else of the machine; the model's own
flag `trespass` (log entry 12) records exactly the writes that break the duty of R156; a write that keeps it leaves every
bus pin's level and mode, and what has reached its line (U10, log entry 20). -/
def Obligations.AgentWrites : Prop :=
  ∀ (s : State) (r : Reg) (v : Word) (rest : List HostMove), s.rstIn = none →
    s.pending = .agentWrite (Ops.addrOf s.cfg r) v :: rest →
    ∃ t, step s = .next t ∧
      t = { s with pending := rest, block := Ops.writeReg r v s.block, trespass := t.trespass } ∧
      (t.trespass = true ↔ s.trespass = true ∨ ¬Claims.agentDuty s (Ops.addrOf s.cfg r) v) ∧
      (Claims.agentDuty s (Ops.addrOf s.cfg r) v → ∀ l p, s.cfg.pin? l = some p →
        Ops.level t.block p = Ops.level s.block p ∧ Ops.mode t.block p = Ops.mode s.block p ∧
        Ops.shown t.block p = Ops.shown s.block p)
end

