-- ==== Sys2Proof/Laws/State.lean ====
section
/-! SUPPORT. One lemma per field for each named update of the state: what the update leaves in that field. -/

namespace Sys2Proof.Laws

open Machine

/-! ### Ops.accept -/

@[simp] theorem accept_cfg (op : BitVec 4) (arg : Byte) (s : State) :
    (Ops.accept op arg s).cfg = s.cfg := rfl

@[simp] theorem accept_op (op : BitVec 4) (arg : Byte) (s : State) :
    (Ops.accept op arg s).op = op := rfl

@[simp] theorem accept_arg (op : BitVec 4) (arg : Byte) (s : State) :
    (Ops.accept op arg s).arg = arg := rfl

@[simp] theorem accept_nib (op : BitVec 4) (arg : Byte) (s : State) :
    (Ops.accept op arg s).nib = s.nib := rfl

@[simp] theorem accept_upc (op : BitVec 4) (arg : Byte) (s : State) :
    (Ops.accept op arg s).upc = 0 := rfl

@[simp] theorem accept_busy (op : BitVec 4) (arg : Byte) (s : State) :
    (Ops.accept op arg s).busy = true := rfl

@[simp] theorem accept_phase (op : BitVec 4) (arg : Byte) (s : State) :
    (Ops.accept op arg s).phase = s.phase := rfl

@[simp] theorem accept_ill (op : BitVec 4) (arg : Byte) (s : State) :
    (Ops.accept op arg s).ill = (s.ill || Flags.reservedOp op) := rfl

@[simp] theorem accept_viol (op : BitVec 4) (arg : Byte) (s : State) :
    (Ops.accept op arg s).viol = (s.viol || Flags.violates op s.phase) := rfl

@[simp] theorem accept_dly (op : BitVec 4) (arg : Byte) (s : State) :
    (Ops.accept op arg s).dly = s.dly := rfl

@[simp] theorem accept_rdata (op : BitVec 4) (arg : Byte) (s : State) :
    (Ops.accept op arg s).rdata = s.rdata := rfl

@[simp] theorem accept_block (op : BitVec 4) (arg : Byte) (s : State) :
    (Ops.accept op arg s).block = s.block := rfl

@[simp] theorem accept_trace (op : BitVec 4) (arg : Byte) (s : State) :
    (Ops.accept op arg s).trace = s.trace := rfl

@[simp] theorem accept_history (op : BitVec 4) (arg : Byte) (s : State) :
    (Ops.accept op arg s).history = s.history := rfl

@[simp] theorem accept_openGuard (op : BitVec 4) (arg : Byte) (s : State) :
    (Ops.accept op arg s).openGuard = s.openGuard := rfl

@[simp] theorem accept_readCursor (op : BitVec 4) (arg : Byte) (s : State) :
    (Ops.accept op arg s).readCursor = s.readCursor := rfl

@[simp] theorem accept_trespass (op : BitVec 4) (arg : Byte) (s : State) :
    (Ops.accept op arg s).trespass = s.trespass := rfl

@[simp] theorem accept_results (op : BitVec 4) (arg : Byte) (s : State) :
    (Ops.accept op arg s).results = s.results := rfl

@[simp] theorem accept_pending (op : BitVec 4) (arg : Byte) (s : State) :
    (Ops.accept op arg s).pending = s.pending := rfl

@[simp] theorem accept_rstIn (op : BitVec 4) (arg : Byte) (s : State) :
    (Ops.accept op arg s).rstIn = s.rstIn := rfl

@[simp] theorem accept_pace (op : BitVec 4) (arg : Byte) (s : State) :
    (Ops.accept op arg s).pace = s.pace := rfl

/-! ### Ops.complete -/

@[simp] theorem complete_cfg (s : State) :
    (Ops.complete s).cfg = s.cfg := rfl

@[simp] theorem complete_op (s : State) :
    (Ops.complete s).op = s.op := rfl

@[simp] theorem complete_arg (s : State) :
    (Ops.complete s).arg = s.arg := rfl

@[simp] theorem complete_nib (s : State) :
    (Ops.complete s).nib = s.nib := rfl

@[simp] theorem complete_upc (s : State) :
    (Ops.complete s).upc = s.upc := rfl

@[simp] theorem complete_busy (s : State) :
    (Ops.complete s).busy = false := rfl

@[simp] theorem complete_phase (s : State) :
    (Ops.complete s).phase = Flags.phaseAfter s.op s.phase := rfl

@[simp] theorem complete_ill (s : State) :
    (Ops.complete s).ill = s.ill := rfl

@[simp] theorem complete_viol (s : State) :
    (Ops.complete s).viol = s.viol := rfl

@[simp] theorem complete_dly (s : State) :
    (Ops.complete s).dly = s.dly := rfl

@[simp] theorem complete_rdata (s : State) :
    (Ops.complete s).rdata = s.rdata := rfl

@[simp] theorem complete_block (s : State) :
    (Ops.complete s).block = s.block := rfl

@[simp] theorem complete_trace (s : State) :
    (Ops.complete s).trace = s.trace := rfl

@[simp] theorem complete_history (s : State) :
    (Ops.complete s).history = s.history := rfl

@[simp] theorem complete_openGuard (s : State) :
    (Ops.complete s).openGuard = s.openGuard := rfl

@[simp] theorem complete_readCursor (s : State) :
    (Ops.complete s).readCursor = s.readCursor := rfl

@[simp] theorem complete_trespass (s : State) :
    (Ops.complete s).trespass = s.trespass := rfl

@[simp] theorem complete_results (s : State) :
    (Ops.complete s).results = s.results := rfl

@[simp] theorem complete_pending (s : State) :
    (Ops.complete s).pending = s.pending := rfl

@[simp] theorem complete_rstIn (s : State) :
    (Ops.complete s).rstIn = s.rstIn := rfl

@[simp] theorem complete_pace (s : State) :
    (Ops.complete s).pace = s.pace := rfl

/-! ### Ops.record -/

@[simp] theorem record_cfg (m : MicroOp) (s : State) :
    (Ops.record m s).cfg = s.cfg := rfl

@[simp] theorem record_op (m : MicroOp) (s : State) :
    (Ops.record m s).op = s.op := rfl

@[simp] theorem record_arg (m : MicroOp) (s : State) :
    (Ops.record m s).arg = s.arg := rfl

@[simp] theorem record_nib (m : MicroOp) (s : State) :
    (Ops.record m s).nib = Operands.nibAfter s.nib m := rfl

@[simp] theorem record_upc (m : MicroOp) (s : State) :
    (Ops.record m s).upc = s.upc + 1 := rfl

@[simp] theorem record_busy (m : MicroOp) (s : State) :
    (Ops.record m s).busy = s.busy := rfl

@[simp] theorem record_phase (m : MicroOp) (s : State) :
    (Ops.record m s).phase = s.phase := rfl

@[simp] theorem record_ill (m : MicroOp) (s : State) :
    (Ops.record m s).ill = s.ill := rfl

@[simp] theorem record_viol (m : MicroOp) (s : State) :
    (Ops.record m s).viol = s.viol := rfl

@[simp] theorem record_dly (m : MicroOp) (s : State) :
    (Ops.record m s).dly = s.dly := rfl

@[simp] theorem record_rdata (m : MicroOp) (s : State) :
    (Ops.record m s).rdata = s.rdata := rfl

@[simp] theorem record_block (m : MicroOp) (s : State) :
    (Ops.record m s).block = s.block := rfl

@[simp] theorem record_trace (m : MicroOp) (s : State) :
    (Ops.record m s).trace = s.trace ++ [Operands.event s.nib m] := rfl

@[simp] theorem record_history (m : MicroOp) (s : State) :
    (Ops.record m s).history = s.history := rfl

@[simp] theorem record_openGuard (m : MicroOp) (s : State) :
    (Ops.record m s).openGuard = s.openGuard := rfl

@[simp] theorem record_readCursor (m : MicroOp) (s : State) :
    (Ops.record m s).readCursor = s.readCursor := rfl

@[simp] theorem record_trespass (m : MicroOp) (s : State) :
    (Ops.record m s).trespass = s.trespass := rfl

@[simp] theorem record_results (m : MicroOp) (s : State) :
    (Ops.record m s).results = s.results := rfl

@[simp] theorem record_pending (m : MicroOp) (s : State) :
    (Ops.record m s).pending = s.pending := rfl

@[simp] theorem record_rstIn (m : MicroOp) (s : State) :
    (Ops.record m s).rstIn = s.rstIn := rfl

@[simp] theorem record_pace (m : MicroOp) (s : State) :
    (Ops.record m s).pace = s.pace := rfl

/-! ### Ops.perform -/

@[simp] theorem perform_cfg (m : MicroOp) (s : State) :
    (Ops.perform m s).cfg = s.cfg := rfl

@[simp] theorem perform_op (m : MicroOp) (s : State) :
    (Ops.perform m s).op = s.op := rfl

@[simp] theorem perform_arg (m : MicroOp) (s : State) :
    (Ops.perform m s).arg = s.arg := rfl

@[simp] theorem perform_nib (m : MicroOp) (s : State) :
    (Ops.perform m s).nib = Operands.nibAfter s.nib m := rfl

@[simp] theorem perform_upc (m : MicroOp) (s : State) :
    (Ops.perform m s).upc = s.upc + 1 := rfl

@[simp] theorem perform_busy (m : MicroOp) (s : State) :
    (Ops.perform m s).busy = s.busy := rfl

@[simp] theorem perform_phase (m : MicroOp) (s : State) :
    (Ops.perform m s).phase = s.phase := rfl

@[simp] theorem perform_ill (m : MicroOp) (s : State) :
    (Ops.perform m s).ill = s.ill := rfl

@[simp] theorem perform_viol (m : MicroOp) (s : State) :
    (Ops.perform m s).viol = s.viol := rfl

@[simp] theorem perform_dly (m : MicroOp) (s : State) :
    (Ops.perform m s).dly = Ops.dlyAfter (Operands.event s.nib m) s.dly := rfl

@[simp] theorem perform_rdata (m : MicroOp) (s : State) :
    (Ops.perform m s).rdata = s.rdata := rfl

@[simp] theorem perform_block (m : MicroOp) (s : State) :
    (Ops.perform m s).block = Ops.applyEvent s.cfg (Operands.event s.nib m) s.block := rfl

@[simp] theorem perform_trace (m : MicroOp) (s : State) :
    (Ops.perform m s).trace = s.trace ++ [Operands.event s.nib m] := rfl

@[simp] theorem perform_history (m : MicroOp) (s : State) :
    (Ops.perform m s).history = s.history := rfl

@[simp] theorem perform_openGuard (m : MicroOp) (s : State) :
    (Ops.perform m s).openGuard = s.openGuard := rfl

@[simp] theorem perform_readCursor (m : MicroOp) (s : State) :
    (Ops.perform m s).readCursor = s.readCursor := rfl

@[simp] theorem perform_trespass (m : MicroOp) (s : State) :
    (Ops.perform m s).trespass = s.trespass := rfl

@[simp] theorem perform_results (m : MicroOp) (s : State) :
    (Ops.perform m s).results = s.results := rfl

@[simp] theorem perform_pending (m : MicroOp) (s : State) :
    (Ops.perform m s).pending = s.pending := rfl

@[simp] theorem perform_rstIn (m : MicroOp) (s : State) :
    (Ops.perform m s).rstIn = s.rstIn := rfl

@[simp] theorem perform_pace (m : MicroOp) (s : State) :
    (Ops.perform m s).pace = s.pace := rfl

/-! ### Ops.rst -/

@[simp] theorem rst_cfg (s : State) :
    (Ops.rst s).cfg = s.cfg := rfl

@[simp] theorem rst_op (s : State) :
    (Ops.rst s).op = 0 := rfl

@[simp] theorem rst_arg (s : State) :
    (Ops.rst s).arg = 0 := rfl

@[simp] theorem rst_nib (s : State) :
    (Ops.rst s).nib = 0 := rfl

@[simp] theorem rst_upc (s : State) :
    (Ops.rst s).upc = 0 := rfl

@[simp] theorem rst_busy (s : State) :
    (Ops.rst s).busy = false := rfl

@[simp] theorem rst_phase (s : State) :
    (Ops.rst s).phase = .detached := rfl

@[simp] theorem rst_ill (s : State) :
    (Ops.rst s).ill = false := rfl

@[simp] theorem rst_viol (s : State) :
    (Ops.rst s).viol = false := rfl

@[simp] theorem rst_dly (s : State) :
    (Ops.rst s).dly = 0 := rfl

@[simp] theorem rst_rdata (s : State) :
    (Ops.rst s).rdata = none := rfl

@[simp] theorem rst_block (s : State) :
    (Ops.rst s).block = s.block := rfl

@[simp] theorem rst_trace (s : State) :
    (Ops.rst s).trace = [] := rfl

@[simp] theorem rst_history (s : State) :
    (Ops.rst s).history = s.history ++ s.trace := rfl

@[simp] theorem rst_openGuard (s : State) :
    (Ops.rst s).openGuard = false := rfl

@[simp] theorem rst_readCursor (s : State) :
    (Ops.rst s).readCursor = 0 := rfl

@[simp] theorem rst_trespass (s : State) :
    (Ops.rst s).trespass = false := rfl

@[simp] theorem rst_results (s : State) :
    (Ops.rst s).results = s.results := rfl

@[simp] theorem rst_pending (s : State) :
    (Ops.rst s).pending = Ops.dropInterrupted s.pending := rfl

@[simp] theorem rst_rstIn (s : State) :
    (Ops.rst s).rstIn = none := rfl

@[simp] theorem rst_pace (s : State) :
    (Ops.rst s).pace = s.pace := rfl

/-! ### HostLayer.giveBack -/

@[simp] theorem giveBack_cfg (r : HostResult) (s : State) :
    (HostLayer.giveBack r s).cfg = s.cfg := rfl

@[simp] theorem giveBack_op (r : HostResult) (s : State) :
    (HostLayer.giveBack r s).op = s.op := rfl

@[simp] theorem giveBack_arg (r : HostResult) (s : State) :
    (HostLayer.giveBack r s).arg = s.arg := rfl

@[simp] theorem giveBack_nib (r : HostResult) (s : State) :
    (HostLayer.giveBack r s).nib = s.nib := rfl

@[simp] theorem giveBack_upc (r : HostResult) (s : State) :
    (HostLayer.giveBack r s).upc = s.upc := rfl

@[simp] theorem giveBack_busy (r : HostResult) (s : State) :
    (HostLayer.giveBack r s).busy = s.busy := rfl

@[simp] theorem giveBack_phase (r : HostResult) (s : State) :
    (HostLayer.giveBack r s).phase = s.phase := rfl

@[simp] theorem giveBack_ill (r : HostResult) (s : State) :
    (HostLayer.giveBack r s).ill = s.ill := rfl

@[simp] theorem giveBack_viol (r : HostResult) (s : State) :
    (HostLayer.giveBack r s).viol = s.viol := rfl

@[simp] theorem giveBack_dly (r : HostResult) (s : State) :
    (HostLayer.giveBack r s).dly = s.dly := rfl

@[simp] theorem giveBack_rdata (r : HostResult) (s : State) :
    (HostLayer.giveBack r s).rdata = s.rdata := rfl

@[simp] theorem giveBack_block (r : HostResult) (s : State) :
    (HostLayer.giveBack r s).block = s.block := rfl

@[simp] theorem giveBack_trace (r : HostResult) (s : State) :
    (HostLayer.giveBack r s).trace = s.trace := rfl

@[simp] theorem giveBack_history (r : HostResult) (s : State) :
    (HostLayer.giveBack r s).history = s.history := rfl

@[simp] theorem giveBack_openGuard (r : HostResult) (s : State) :
    (HostLayer.giveBack r s).openGuard = s.openGuard := rfl

@[simp] theorem giveBack_readCursor (r : HostResult) (s : State) :
    (HostLayer.giveBack r s).readCursor = s.readCursor := rfl

@[simp] theorem giveBack_trespass (r : HostResult) (s : State) :
    (HostLayer.giveBack r s).trespass = s.trespass := rfl

@[simp] theorem giveBack_results (r : HostResult) (s : State) :
    (HostLayer.giveBack r s).results = s.results ++ [r] := rfl

@[simp] theorem giveBack_pending (r : HostResult) (s : State) :
    (HostLayer.giveBack r s).pending = s.pending := rfl

@[simp] theorem giveBack_rstIn (r : HostResult) (s : State) :
    (HostLayer.giveBack r s).rstIn = s.rstIn := rfl

@[simp] theorem giveBack_pace (r : HostResult) (s : State) :
    (HostLayer.giveBack r s).pace = s.pace := rfl

/-! ### Clock.loadDelay and Clock.settle: only DLY, and only BUSY and PHASE -/

@[simp] theorem loadDelay_cfg (s : State) : (Clock.loadDelay s).cfg = s.cfg := by
  unfold Clock.loadDelay
  split <;> rfl

@[simp] theorem loadDelay_op (s : State) : (Clock.loadDelay s).op = s.op := by
  unfold Clock.loadDelay
  split <;> rfl

@[simp] theorem loadDelay_arg (s : State) : (Clock.loadDelay s).arg = s.arg := by
  unfold Clock.loadDelay
  split <;> rfl

@[simp] theorem loadDelay_nib (s : State) : (Clock.loadDelay s).nib = s.nib := by
  unfold Clock.loadDelay
  split <;> rfl

@[simp] theorem loadDelay_upc (s : State) : (Clock.loadDelay s).upc = s.upc := by
  unfold Clock.loadDelay
  split <;> rfl

@[simp] theorem loadDelay_busy (s : State) : (Clock.loadDelay s).busy = s.busy := by
  unfold Clock.loadDelay
  split <;> rfl

@[simp] theorem loadDelay_phase (s : State) : (Clock.loadDelay s).phase = s.phase := by
  unfold Clock.loadDelay
  split <;> rfl

@[simp] theorem loadDelay_ill (s : State) : (Clock.loadDelay s).ill = s.ill := by
  unfold Clock.loadDelay
  split <;> rfl

@[simp] theorem loadDelay_viol (s : State) : (Clock.loadDelay s).viol = s.viol := by
  unfold Clock.loadDelay
  split <;> rfl

@[simp] theorem loadDelay_rdata (s : State) : (Clock.loadDelay s).rdata = s.rdata := by
  unfold Clock.loadDelay
  split <;> rfl

@[simp] theorem loadDelay_block (s : State) : (Clock.loadDelay s).block = s.block := by
  unfold Clock.loadDelay
  split <;> rfl

@[simp] theorem loadDelay_trace (s : State) : (Clock.loadDelay s).trace = s.trace := by
  unfold Clock.loadDelay
  split <;> rfl

@[simp] theorem loadDelay_history (s : State) : (Clock.loadDelay s).history = s.history := by
  unfold Clock.loadDelay
  split <;> rfl

@[simp] theorem loadDelay_openGuard (s : State) : (Clock.loadDelay s).openGuard = s.openGuard := by
  unfold Clock.loadDelay
  split <;> rfl

@[simp] theorem loadDelay_readCursor (s : State) : (Clock.loadDelay s).readCursor = s.readCursor := by
  unfold Clock.loadDelay
  split <;> rfl

@[simp] theorem loadDelay_trespass (s : State) : (Clock.loadDelay s).trespass = s.trespass := by
  unfold Clock.loadDelay
  split <;> rfl

@[simp] theorem loadDelay_results (s : State) : (Clock.loadDelay s).results = s.results := by
  unfold Clock.loadDelay
  split <;> rfl

@[simp] theorem loadDelay_pending (s : State) : (Clock.loadDelay s).pending = s.pending := by
  unfold Clock.loadDelay
  split <;> rfl

@[simp] theorem loadDelay_rstIn (s : State) : (Clock.loadDelay s).rstIn = s.rstIn := by
  unfold Clock.loadDelay
  split <;> rfl

@[simp] theorem loadDelay_pace (s : State) : (Clock.loadDelay s).pace = s.pace := by
  unfold Clock.loadDelay
  split <;> rfl

@[simp] theorem settle_cfg (s : State) : (Clock.settle s).cfg = s.cfg := by
  unfold Clock.settle
  split <;> rfl

@[simp] theorem settle_op (s : State) : (Clock.settle s).op = s.op := by
  unfold Clock.settle
  split <;> rfl

@[simp] theorem settle_arg (s : State) : (Clock.settle s).arg = s.arg := by
  unfold Clock.settle
  split <;> rfl

@[simp] theorem settle_nib (s : State) : (Clock.settle s).nib = s.nib := by
  unfold Clock.settle
  split <;> rfl

@[simp] theorem settle_upc (s : State) : (Clock.settle s).upc = s.upc := by
  unfold Clock.settle
  split <;> rfl

@[simp] theorem settle_ill (s : State) : (Clock.settle s).ill = s.ill := by
  unfold Clock.settle
  split <;> rfl

@[simp] theorem settle_viol (s : State) : (Clock.settle s).viol = s.viol := by
  unfold Clock.settle
  split <;> rfl

@[simp] theorem settle_dly (s : State) : (Clock.settle s).dly = s.dly := by
  unfold Clock.settle
  split <;> rfl

@[simp] theorem settle_rdata (s : State) : (Clock.settle s).rdata = s.rdata := by
  unfold Clock.settle
  split <;> rfl

@[simp] theorem settle_block (s : State) : (Clock.settle s).block = s.block := by
  unfold Clock.settle
  split <;> rfl

@[simp] theorem settle_trace (s : State) : (Clock.settle s).trace = s.trace := by
  unfold Clock.settle
  split <;> rfl

@[simp] theorem settle_history (s : State) : (Clock.settle s).history = s.history := by
  unfold Clock.settle
  split <;> rfl

@[simp] theorem settle_openGuard (s : State) : (Clock.settle s).openGuard = s.openGuard := by
  unfold Clock.settle
  split <;> rfl

@[simp] theorem settle_readCursor (s : State) : (Clock.settle s).readCursor = s.readCursor := by
  unfold Clock.settle
  split <;> rfl

@[simp] theorem settle_trespass (s : State) : (Clock.settle s).trespass = s.trespass := by
  unfold Clock.settle
  split <;> rfl

@[simp] theorem settle_results (s : State) : (Clock.settle s).results = s.results := by
  unfold Clock.settle
  split <;> rfl

@[simp] theorem settle_pending (s : State) : (Clock.settle s).pending = s.pending := by
  unfold Clock.settle
  split <;> rfl

@[simp] theorem settle_rstIn (s : State) : (Clock.settle s).rstIn = s.rstIn := by
  unfold Clock.settle
  split <;> rfl

@[simp] theorem settle_pace (s : State) : (Clock.settle s).pace = s.pace := by
  unfold Clock.settle
  split <;> rfl

/-! ### Ops.performAll: the fields no list element touches -/

@[simp] theorem performAll_cfg (ms : List MicroOp) (s : State) : (Ops.performAll ms s).cfg = s.cfg := by
  induction ms generalizing s with
  | nil => rfl
  | cons m ms ih => simp [Ops.performAll, ih]

@[simp] theorem performAll_op (ms : List MicroOp) (s : State) : (Ops.performAll ms s).op = s.op := by
  induction ms generalizing s with
  | nil => rfl
  | cons m ms ih => simp [Ops.performAll, ih]

@[simp] theorem performAll_arg (ms : List MicroOp) (s : State) : (Ops.performAll ms s).arg = s.arg := by
  induction ms generalizing s with
  | nil => rfl
  | cons m ms ih => simp [Ops.performAll, ih]

@[simp] theorem performAll_busy (ms : List MicroOp) (s : State) : (Ops.performAll ms s).busy = s.busy := by
  induction ms generalizing s with
  | nil => rfl
  | cons m ms ih => simp [Ops.performAll, ih]

@[simp] theorem performAll_phase (ms : List MicroOp) (s : State) : (Ops.performAll ms s).phase = s.phase := by
  induction ms generalizing s with
  | nil => rfl
  | cons m ms ih => simp [Ops.performAll, ih]

@[simp] theorem performAll_ill (ms : List MicroOp) (s : State) : (Ops.performAll ms s).ill = s.ill := by
  induction ms generalizing s with
  | nil => rfl
  | cons m ms ih => simp [Ops.performAll, ih]

@[simp] theorem performAll_viol (ms : List MicroOp) (s : State) : (Ops.performAll ms s).viol = s.viol := by
  induction ms generalizing s with
  | nil => rfl
  | cons m ms ih => simp [Ops.performAll, ih]

@[simp] theorem performAll_rdata (ms : List MicroOp) (s : State) : (Ops.performAll ms s).rdata = s.rdata := by
  induction ms generalizing s with
  | nil => rfl
  | cons m ms ih => simp [Ops.performAll, ih]

@[simp] theorem performAll_history (ms : List MicroOp) (s : State) : (Ops.performAll ms s).history = s.history := by
  induction ms generalizing s with
  | nil => rfl
  | cons m ms ih => simp [Ops.performAll, ih]

@[simp] theorem performAll_openGuard (ms : List MicroOp) (s : State) : (Ops.performAll ms s).openGuard = s.openGuard := by
  induction ms generalizing s with
  | nil => rfl
  | cons m ms ih => simp [Ops.performAll, ih]

@[simp] theorem performAll_readCursor (ms : List MicroOp) (s : State) : (Ops.performAll ms s).readCursor = s.readCursor := by
  induction ms generalizing s with
  | nil => rfl
  | cons m ms ih => simp [Ops.performAll, ih]

@[simp] theorem performAll_trespass (ms : List MicroOp) (s : State) : (Ops.performAll ms s).trespass = s.trespass := by
  induction ms generalizing s with
  | nil => rfl
  | cons m ms ih => simp [Ops.performAll, ih]

@[simp] theorem performAll_results (ms : List MicroOp) (s : State) : (Ops.performAll ms s).results = s.results := by
  induction ms generalizing s with
  | nil => rfl
  | cons m ms ih => simp [Ops.performAll, ih]

@[simp] theorem performAll_pending (ms : List MicroOp) (s : State) : (Ops.performAll ms s).pending = s.pending := by
  induction ms generalizing s with
  | nil => rfl
  | cons m ms ih => simp [Ops.performAll, ih]

@[simp] theorem performAll_rstIn (ms : List MicroOp) (s : State) : (Ops.performAll ms s).rstIn = s.rstIn := by
  induction ms generalizing s with
  | nil => rfl
  | cons m ms ih => simp [Ops.performAll, ih]

@[simp] theorem performAll_pace (ms : List MicroOp) (s : State) : (Ops.performAll ms s).pace = s.pace := by
  induction ms generalizing s with
  | nil => rfl
  | cons m ms ih => simp [Ops.performAll, ih]

end Sys2Proof.Laws
end

