-- ==== Sys2Proof/Laws/Run.lean ====
section
/-! SUPPORT. What running a list of the sequencer does, said once: the pin events it emits, and the registers and the block
after it; and the event lists of the operations, which do not depend on what NIB held before. -/

namespace Sys2Proof.Laws

open Machine

/-! ## Lists of elements -/

@[simp] theorem events_nil (nib : Nibble) : Operands.events nib [] = [] := rfl

theorem events_cons (nib : Nibble) (m : MicroOp) (ms : List MicroOp) :
    Operands.events nib (m :: ms) =
      Operands.event nib m :: Operands.events (Operands.nibAfter nib m) ms := rfl

theorem events_length (nib : Nibble) (ms : List MicroOp) :
    (Operands.events nib ms).length = ms.length := by
  induction ms generalizing nib with
  | nil => rfl
  | cons m ms ih => simp [Operands.events, ih]

/-- NIB after a list. -/
theorem events_append (nib : Nibble) (as bs : List MicroOp) :
    Operands.events nib (as ++ bs) =
      Operands.events nib as ++ Operands.events (as.foldl Operands.nibAfter nib) bs := by
  induction as generalizing nib with
  | nil => rfl
  | cons a as ih => simp [Operands.events, ih]

@[simp] theorem performAll_nil (s : State) : Ops.performAll [] s = s := rfl

@[simp] theorem performAll_cons (m : MicroOp) (ms : List MicroOp) (s : State) :
    Ops.performAll (m :: ms) s = Ops.performAll ms (Ops.perform m s) := rfl

theorem performAll_append (as bs : List MicroOp) (s : State) :
    Ops.performAll (as ++ bs) s = Ops.performAll bs (Ops.performAll as s) := by
  induction as generalizing s with
  | nil => rfl
  | cons a as ih => simp [ih]

@[simp] theorem performAll_nib (ms : List MicroOp) (s : State) :
    (Ops.performAll ms s).nib = ms.foldl Operands.nibAfter s.nib := by
  induction ms generalizing s with
  | nil => rfl
  | cons m ms ih => simp [ih]

@[simp] theorem performAll_upc (ms : List MicroOp) (s : State) :
    (Ops.performAll ms s).upc = s.upc + ms.length := by
  induction ms generalizing s with
  | nil => rfl
  | cons m ms ih => simp [ih]; omega

@[simp] theorem performAll_trace (ms : List MicroOp) (s : State) :
    (Ops.performAll ms s).trace = s.trace ++ Operands.events s.nib ms := by
  induction ms generalizing s with
  | nil => simp
  | cons m ms ih => simp [ih, Operands.events]

/-- The register block after a list of events, the first on `k`. -/
def applyEvents (c : Config) (es : List PinEvent) (k : RegBlock) : RegBlock :=
  es.foldl (fun k e => Ops.applyEvent c e k) k

@[simp] theorem applyEvents_nil (c : Config) (k : RegBlock) : applyEvents c [] k = k := rfl

@[simp] theorem applyEvents_cons (c : Config) (e : PinEvent) (es : List PinEvent) (k : RegBlock) :
    applyEvents c (e :: es) k = applyEvents c es (Ops.applyEvent c e k) := rfl

theorem applyEvents_append (c : Config) (as bs : List PinEvent) (k : RegBlock) :
    applyEvents c (as ++ bs) k = applyEvents c bs (applyEvents c as k) := by
  simp [applyEvents, List.foldl_append]

@[simp] theorem performAll_block (ms : List MicroOp) (s : State) :
    (Ops.performAll ms s).block = applyEvents s.cfg (Operands.events s.nib ms) s.block := by
  induction ms generalizing s with
  | nil => rfl
  | cons m ms ih => simp [ih, Operands.events]

/-- A list of events that ends in a wait leaves DLY 0; one without a wait leaves it alone (R180). -/
theorem performAll_dly (ms : List MicroOp) (s : State) :
    (Ops.performAll ms s).dly =
      (Operands.events s.nib ms).foldl (fun d e => Ops.dlyAfter e d) s.dly := by
  induction ms generalizing s with
  | nil => rfl
  | cons m ms ih => simp [ih, Operands.events]

/-! ## The operations' event lists (R120 to R142) -/

theorem cmdNib_eq (a : Byte) : Operands.cmdNib a = Claims.low a := by
  revert a; decide

theorem loNib_eq (a : Byte) : Operands.loNib a = Claims.low a := by
  revert a; decide

theorem hiNib_eq (a : Byte) : Operands.hiNib a = Claims.high a := by
  revert a; decide

@[simp] theorem events_busUpd (nib n : Nibble) (ms : List MicroOp) :
    Operands.events nib (Operands.busUpd n ++ ms) = Claims.busUpd n ++ Operands.events n ms := rfl

@[simp] theorem events_pulse (nib : Nibble) (ms : List MicroOp) :
    Operands.events nib (Operands.pulse ++ ms) = Claims.pulse ++ Operands.events nib ms := rfl

theorem events_writeCommand (nib n : Nibble) (ms : List MicroOp) :
    Operands.events nib (Operands.writeCommand n ++ ms) = Claims.wrcmd n ++ Operands.events n ms := rfl

theorem events_writeData (nib : Nibble) (v : Byte) :
    Operands.events nib (Operands.writeData v) = Claims.wrdata v := by
  have h : Operands.events nib (Operands.writeData v) =
      .hi .rs :: (Claims.busUpd (Operands.hiNib v) ++ Claims.pulse ++
        Claims.busUpd (Operands.loNib v) ++ Claims.pulse) := rfl
  rw [h, hiNib_eq, loNib_eq, Claims.wrdata]

theorem events_cmdSeq (nib : Nibble) (codes : List Nibble) (c : DelayClass) (ms : List MicroOp) :
    Operands.events nib (Operands.cmdSeq codes c ++ ms) =
      Claims.cmdSeq codes c ++ Operands.events (codes.getLastD nib) ms := by
  induction codes generalizing nib with
  | nil => rfl
  | cons n ns ih =>
    have h : Operands.cmdSeq (n :: ns) c = Operands.writeCommand n ++ Operands.cmdSeq ns c := by
      simp [Operands.cmdSeq]
    rw [h, List.append_assoc, events_writeCommand, ih]
    simp only [Claims.cmdSeq, List.append_assoc, List.getLastD_cons]

theorem events_cmdSeq_last (nib : Nibble) (codes : List Nibble) (c : DelayClass) :
    Operands.events nib (Operands.cmdSeq codes c) = Claims.cmdSeq codes c := by
  have h := events_cmdSeq nib codes c []
  simpa using h

theorem events_configList (nib : Nibble) (p : Params) :
    Operands.events nib (Protocol.configList p) = Claims.config p := by
  unfold Protocol.configList Protocol.rwList Claims.config Claims.rwEvents
  split <;> split <;> simp_all [Operands.events, Operands.event]

theorem events_initList (nib : Nibble) (p : Params) :
    Operands.events nib (Protocol.initList p) = Claims.init p := by
  simp only [Protocol.initList, List.append_assoc, events_cmdSeq, events_cmdSeq_last, Claims.init,
    Operands.cClear]

/-- The list a request's operation code selects emits the request's event list, whatever NIB held (R32, R58). -/
theorem events_program (nib : Nibble) (p : Params) (i : Instr) :
    Operands.events nib (Clock.program p (opcode i) i.arg) = Claims.events p i := by
  cases i <;>
    simp [Clock.program, opcode, Instr.arg, Claims.events, events_configList, events_initList,
      Protocol.wrcmdList, cmdNib_eq, Protocol.wrdataList, events_writeData, Display.clearList,
      Display.homeList, Display.line2List, events_cmdSeq_last, Operands.cClear, Operands.cHome,
      Operands.cLine2]
  case wrcmd code => exact events_writeCommand nib (Claims.low code) []

/-! ## The meaning of a request, said once -/

/-- Every request runs the list its operation code selects. -/
theorem exec_eq_runRequest (i : Instr) (s : State) :
    exec i s = Ops.runRequest (opcode i) i.arg (Clock.program s.cfg.params (opcode i) i.arg) s := by
  cases i <;> rfl

/-- A request at an idle block is accepted, its list performed, and it completes; at a busy block nothing happens (R71). -/
theorem exec_eq (i : Instr) (s : State) :
    exec i s = .next (if s.busy then s else
      Ops.complete (Ops.performAll (Clock.program s.cfg.params (opcode i) i.arg)
        (Ops.accept (opcode i) i.arg s))) := by
  rw [exec_eq_runRequest, Ops.runRequest]
  split <;> simp_all

/-- `exec` answers a next state for every request in every state (R174). -/
theorem exec_next_iff (i : Instr) (s t : State) :
    exec i s = .next t ↔ t = if s.busy then s else
      Ops.complete (Ops.performAll (Clock.program s.cfg.params (opcode i) i.arg)
        (Ops.accept (opcode i) i.arg s)) := by
  rw [exec_eq, Host.Outcome.next.injEq]
  exact eq_comm

end Sys2Proof.Laws
end

