-- ==== Sys2Proof/Laws/Block.lean ====
section
/-! SUPPORT. The register block: the map of R53 is one to one, what a word write does to a level and to a mode, and what each pin
event does, said once (R100 to R103). -/

namespace Sys2Proof.Laws

open Machine

/-! ## The configuration -/

theorem config_banks (c : Config) :
    (c.params.fselBase % 4 = 0 ∧ c.params.setBase % 4 = 0 ∧ c.params.clrBase % 4 = 0) ∧
    (c.params.fselBase + 28 ≤ c.params.setBase ∨ c.params.setBase + 8 ≤ c.params.fselBase) ∧
    (c.params.fselBase + 28 ≤ c.params.clrBase ∨ c.params.clrBase + 8 ≤ c.params.fselBase) ∧
    (c.params.setBase + 8 ≤ c.params.clrBase ∨ c.params.clrBase + 8 ≤ c.params.setBase) := by
  have h := c.ok
  simp [Params.wf, Params.basesAligned, Params.banksDisjoint, Params.apart] at h
  omega

theorem config_pins_nodup (c : Config) : c.params.bus.pins.Nodup := by
  have h := c.ok
  simp only [Params.wf, Params.pinsDistinct, Bool.and_eq_true, decide_eq_true_eq] at h
  exact h.1.1.1.1.1

theorem config_lists (c : Config) :
    (c.params.funcset.length = 1 ∨ c.params.funcset.length = 2) ∧
    (c.params.dispctrl.length = 1 ∨ c.params.dispctrl.length = 2) ∧
    (c.params.entry.length = 1 ∨ c.params.entry.length = 2) ∧
    (c.params.line1.length = 1 ∨ c.params.line1.length = 2) := by
  have h := c.ok
  simp only [Params.wf, Params.listsShort, Params.oneOrTwo, Bool.and_eq_true, Bool.or_eq_true, beq_iff_eq] at h
  tauto

/-- Two lines with the same pin are the same line (R8: "pairwise distinct"). -/
theorem pin_injective (c : Config) {l l' : Line} {p : Pin} (h : c.pin? l = some p) (h' : c.pin? l' = some p) :
    l = l' := by
  have hn := config_pins_nodup c
  cases hrw : c.params.bus.rw <;>
    simp [BusAssignment.pins, hrw] at hn <;>
    cases l <;> cases l' <;> simp [BusAssignment.pin?, hrw] at h h' ⊢ <;>
    simp_all

theorem pin_mem_iff (c : Config) (p : Pin) : p ∈ c.params.bus.pins ↔ ∃ l, c.pin? l = some p := by
  constructor
  · intro h
    simp only [BusAssignment.pins, List.mem_append, List.mem_cons, List.not_mem_nil, or_false,
      Option.mem_toList] at h
    rcases h with (h | h | h | h | h | h) | h
    · exact ⟨.d0, by simp [BusAssignment.pin?, h]⟩
    · exact ⟨.d1, by simp [BusAssignment.pin?, h]⟩
    · exact ⟨.d2, by simp [BusAssignment.pin?, h]⟩
    · exact ⟨.d3, by simp [BusAssignment.pin?, h]⟩
    · exact ⟨.rs, by simp [BusAssignment.pin?, h]⟩
    · exact ⟨.en, by simp [BusAssignment.pin?, h]⟩
    · exact ⟨.rw, by simpa [BusAssignment.pin?] using h⟩
  · rintro ⟨l, h⟩
    cases l <;> simp [BusAssignment.pin?] at h <;> simp [BusAssignment.pins, h]

/-! ## The map (R41, R53) -/

theorem addrOf_injective (c : Config) {r r' : Reg} (h : Ops.addrOf c r = Ops.addrOf c r') : r = r' := by
  have hb := config_banks c
  rcases r with b | b | b <;> rcases r' with b' | b' | b' <;>
    simp only [Ops.addrOf, Ops.fselAddr, Ops.setAddr, Ops.clrAddr, Reg.fsel.injEq, Reg.set.injEq,
      Reg.clr.injEq, reduceCtorEq] at h ⊢ <;> omega

theorem mem_allRegs (r : Reg) : r ∈ Ops.allRegs := by
  rcases r with b | b | b <;> revert b <;> decide

/-- The word at a word's own offset is that word. -/
@[simp] theorem locate_addrOf (c : Config) (r : Reg) : Ops.locate c (Ops.addrOf c r) = some r := by
  rw [Ops.locate, List.find?_eq_some_iff_append]
  refine ⟨by simp, ?_⟩
  obtain ⟨as, bs, h, hn⟩ := List.append_of_mem (mem_allRegs r) |>.imp fun as h => h.imp fun bs h =>
    And.intro h (fun a (ha : a ∈ as) => fun he : a = r => by
      subst he
      have hd : Ops.allRegs.Nodup := by decide
      rw [h, List.nodup_append] at hd
      exact hd.2.2 a ha a (by simp) rfl)
  refine ⟨as, bs, h, fun a ha => ?_⟩
  simp only [Bool.not_eq_eq_eq_not, Bool.not_true, beq_eq_false_iff_ne]
  exact fun he => hn a ha (addrOf_injective c he)

/-- The word found at an offset is at that offset. -/
theorem addrOf_locate (c : Config) {a : Nat} {r : Reg} (h : Ops.locate c a = some r) : Ops.addrOf c r = a := by
  have := List.find?_some h
  simpa using this

/-- The word that holds a pin's function-select field. -/
def fselOf (p : Pin) : Fin 7 := ⟨p.val / 10, by omega⟩

/-- The bank word that holds a pin's bit. -/
def bankOf (p : Pin) : Fin 2 := ⟨p.val / 32, by omega⟩

@[simp] theorem locate_fselAddrOf (c : Config) (p : Pin) :
    Ops.locate c (Ops.fselAddrOf c p) = some (.fsel (fselOf p)) := locate_addrOf c (.fsel (fselOf p))

@[simp] theorem locate_setAddrOf (c : Config) (p : Pin) :
    Ops.locate c (Ops.setAddrOf c p) = some (.set (bankOf p)) := locate_addrOf c (.set (bankOf p))

@[simp] theorem locate_clrAddrOf (c : Config) (p : Pin) :
    Ops.locate c (Ops.clrAddrOf c p) = some (.clr (bankOf p)) := locate_addrOf c (.clr (bankOf p))

/-! ## Levels (R46, R47) -/

/-- An entry after the loop: `x` where the condition holds, below the bound. -/
theorem setWhere_getElem {α : Type} (x : α) (on : Pin → Bool) (n : Nat) (hn : n ≤ 64) (v : Vector α 64) (p : Pin) :
    (Ops.setWhere x on n hn v)[p] = if p.val < n ∧ on p = true then x else v[p] := by
  induction n with
  | zero => simp [Ops.setWhere]
  | succ n ih =>
    have hih := ih (Nat.le_of_succ_le hn)
    simp only [Fin.getElem_fin] at hih ⊢
    by_cases hp : p.val = n
    · subst hp
      by_cases ho : on p = true
      · simp [Ops.setWhere, ho]
      · simpa [Ops.setWhere, ho] using hih
    · have hlt : p.val < n + 1 ↔ p.val < n := by omega
      have hset : ∀ w : Vector α 64, (w.set n x hn)[p.val] = w[p.val] := fun w => by
        rw [Vector.getElem_set_ne]; exact fun h => hp h.symm
      simp only [Ops.setWhere, hlt]
      split <;> simp only [hset, hih]

theorem setWhere_all {α : Type} (x : α) (on : Pin → Bool) (v : Vector α 64) (p : Pin) :
    (Ops.setWhere x on 64 (Nat.le_refl 64) v)[p] = if on p = true then x else v[p] := by
  rw [setWhere_getElem]
  simp only [p.isLt, true_and]

theorem hits_iff (b : Fin 2) (v : Word) (p : Pin) :
    Ops.hits b v p = true ↔ p.val / 32 = b.val ∧ v.getLsbD (p.val % 32) = true := by
  simp [Ops.hits]

/-- The level of a pin after a set-word write (R46). -/
theorem level_writeSet (b : Fin 2) (v : Word) (k : RegBlock) (p : Pin) :
    Ops.level (Ops.writeReg (.set b) v k) p =
      if p.val / 32 = b.val ∧ v.getLsbD (p.val % 32) = true then .high else Ops.level k p := by
  simp only [Ops.level, Ops.writeReg, Ops.driveWord, setWhere_all, hits_iff]

/-- The level of a pin after a clear-word write (R47). -/
theorem level_writeClr (b : Fin 2) (v : Word) (k : RegBlock) (p : Pin) :
    Ops.level (Ops.writeReg (.clr b) v k) p =
      if p.val / 32 = b.val ∧ v.getLsbD (p.val % 32) = true then .low else Ops.level k p := by
  simp only [Ops.level, Ops.writeReg, Ops.driveWord, setWhere_all, hits_iff]

@[simp] theorem level_writeFsel (b : Fin 7) (v : Word) (k : RegBlock) (p : Pin) :
    Ops.level (Ops.writeReg (.fsel b) v k) p = Ops.level k p := rfl

@[simp] theorem fsel_writeFsel (b : Fin 7) (v : Word) (k : RegBlock) :
    (Ops.writeReg (.fsel b) v k).fsel = k.fsel.set b.val v b.isLt := rfl

@[simp] theorem fsel_writeSet (b : Fin 2) (v : Word) (k : RegBlock) :
    (Ops.writeReg (.set b) v k).fsel = k.fsel := rfl

@[simp] theorem fsel_writeClr (b : Fin 2) (v : Word) (k : RegBlock) :
    (Ops.writeReg (.clr b) v k).fsel = k.fsel := rfl

/-! ## Levels that have reached the line (U10) -/

/-- A set-word write reaches the lines of the pins it drives that are outputs (U10). -/
theorem shown_writeSet (b : Fin 2) (v : Word) (k : RegBlock) (p : Pin) :
    Ops.shown (Ops.writeReg (.set b) v k) p =
      if (p.val / 32 = b.val ∧ v.getLsbD (p.val % 32) = true) ∧ Ops.mode k p = 1 then true else Ops.shown k p := by
  simp only [Ops.shown, Ops.writeReg, Ops.driveWord, setWhere_all, Bool.and_eq_true, hits_iff, beq_iff_eq]

/-- A clear-word write reaches the lines of the pins it drives that are outputs (U10). -/
theorem shown_writeClr (b : Fin 2) (v : Word) (k : RegBlock) (p : Pin) :
    Ops.shown (Ops.writeReg (.clr b) v k) p =
      if (p.val / 32 = b.val ∧ v.getLsbD (p.val % 32) = true) ∧ Ops.mode k p = 1 then true else Ops.shown k p := by
  simp only [Ops.shown, Ops.writeReg, Ops.driveWord, setWhere_all, Bool.and_eq_true, hits_iff, beq_iff_eq]

/-- After a function-select write a pin whose mode changed awaits its next write (U10, log entry 20). -/
theorem shown_writeFsel (b : Fin 7) (v : Word) (k : RegBlock) (p : Pin) :
    Ops.shown (Ops.writeReg (.fsel b) v k) p =
      if Ops.mode (Ops.writeReg (.fsel b) v k) p = Ops.mode k p then Ops.shown k p else false := by
  simp only [Ops.shown, Ops.writeReg, Ops.selectWord, setWhere_all, bne_iff_ne, ne_eq, ite_not]
  rfl

/-- A write that leaves a pin's level alone by not hitting it, and its mode, leaves its line alone. -/
theorem shown_writeReg_kept (r : Reg) (v : Word) (k : RegBlock) (p : Pin)
    (hm : Ops.mode (Ops.writeReg r v k) p = Ops.mode k p)
    (hs : ∀ b, r = .set b ∨ r = .clr b → ¬(p.val / 32 = b.val ∧ v.getLsbD (p.val % 32) = true)) :
    Ops.shown (Ops.writeReg r v k) p = Ops.shown k p := by
  cases r with
  | fsel b => rw [shown_writeFsel, if_pos hm]
  | set b => rw [shown_writeSet, if_neg (fun h => hs b (.inl rfl) h.1)]
  | clr b => rw [shown_writeClr, if_neg (fun h => hs b (.inr rfl) h.1)]

/-- Two register blocks with the same words, levels and reached lines are the same. -/
theorem block_ext {k k' : RegBlock} (hf : k.fsel = k'.fsel) (hl : ∀ p, Ops.level k p = Ops.level k' p)
    (hs : ∀ p, Ops.shown k p = Ops.shown k' p) : k = k' := by
  cases k; cases k'
  simp only [RegBlock.mk.injEq]
  exact ⟨hf, by ext i hi; exact hl ⟨i, hi⟩, by ext i hi; exact hs ⟨i, hi⟩⟩

/-- The one-bit mask of a pin has exactly the pin's bit (R77). -/
theorem pinMask_bit (p : Pin) (i : Nat) (hi : i < 32) :
    (Ops.pinMask p).getLsbD i = decide (i = p.val % 32) := by
  have h : p.val % 32 < 32 := Nat.mod_lt _ (by decide)
  simp only [Ops.pinMask, BitVec.getLsbD_shiftLeft, BitVec.getLsbD_one]
  by_cases he : i = p.val % 32
  · subst he; simp [h]
  · simp only [he, decide_false]
    by_cases hl : i < p.val % 32
    · simp [hl]
    · simp [hi, hl]; omega

/-! ## Modes (R45) -/

/-- The field of a pin after the function-select word `b` was replaced by `v`. -/
theorem mode_writeFsel (b : Fin 7) (v : Word) (k : RegBlock) (p : Pin) :
    Ops.mode (Ops.writeReg (.fsel b) v k) p =
      if p.val / 10 = b.val then v.extractLsb' (Ops.fieldShift p) 3 else Ops.mode k p := by
  simp only [Ops.mode, fsel_writeFsel, Vector.getElem_set]
  by_cases h : p.val / 10 = b.val
  · simp [h]
  · simp [h, Ne.symm h]

@[simp] theorem mode_writeSet (b : Fin 2) (v : Word) (k : RegBlock) (p : Pin) :
    Ops.mode (Ops.writeReg (.set b) v k) p = Ops.mode k p := rfl

@[simp] theorem mode_writeClr (b : Fin 2) (v : Word) (k : RegBlock) (p : Pin) :
    Ops.mode (Ops.writeReg (.clr b) v k) p = Ops.mode k p := rfl

theorem fieldShift_lt (p : Pin) : Ops.fieldShift p ≤ 27 := by
  unfold Ops.fieldShift; omega

/-- Bit `i` of the word CFG writes back: the code `0b001` inside the pin's field, the bit read elsewhere (R77, R100). -/
theorem asOutput_bit (p : Pin) (w : Word) (i : Nat) (hi : i < 32) :
    (Ops.asOutput p w).getLsbD i =
      if Ops.fieldShift p ≤ i ∧ i < Ops.fieldShift p + 3 then decide (i = Ops.fieldShift p) else w.getLsbD i := by
  have hs := fieldShift_lt p
  unfold Ops.asOutput
  generalize Ops.fieldShift p = s at *
  have h7 : ∀ j, (7#32).getLsbD j = decide (j < 3) := by
    intro j
    by_cases hj : j < 32
    · revert hj; revert j; decide
    · simp [BitVec.getLsbD_of_ge _ _ (Nat.le_of_not_lt hj)]; omega
  simp only [BitVec.getLsbD_or, BitVec.getLsbD_and, BitVec.getLsbD_not, BitVec.getLsbD_shiftLeft,
    BitVec.getLsbD_one, h7]
  by_cases h1 : i < s
  · have h2 : ¬(s ≤ i ∧ i < s + 3) := by omega
    simp [hi, h1, h2]
  · by_cases h3 : i - s < 3
    · have h2 : s ≤ i ∧ i < s + 3 := by omega
      have h4 : (i - s = 0) ↔ (i = s) := by omega
      simp [hi, h1, h2, h3, h4]
    · have h2 : ¬(s ≤ i ∧ i < s + 3) := by omega
      have h4 : ¬(i - s = 0) := by omega
      simp [hi, h1, h2, h3, h4]

/-- The pin's own field of the word CFG writes back is `0b001`. -/
theorem asOutput_field (p : Pin) (w : Word) : (Ops.asOutput p w).extractLsb' (Ops.fieldShift p) 3 = 1 := by
  have hs := fieldShift_lt p
  apply BitVec.eq_of_getLsbD_eq
  intro i hi
  have h1 : Ops.fieldShift p ≤ Ops.fieldShift p + i ∧ Ops.fieldShift p + i < Ops.fieldShift p + 3 := by omega
  rw [BitVec.getLsbD_extractLsb', asOutput_bit _ _ _ (by omega), if_pos h1]
  simp [hi]

/-- Every other field of the word CFG writes back is as read. -/
theorem asOutput_other (p : Pin) (w : Word) (s : Nat) (hs : s + 3 ≤ 32)
    (h : s + 3 ≤ Ops.fieldShift p ∨ Ops.fieldShift p + 3 ≤ s) :
    (Ops.asOutput p w).extractLsb' s 3 = w.extractLsb' s 3 := by
  apply BitVec.eq_of_getLsbD_eq
  intro i hi
  rw [BitVec.getLsbD_extractLsb', BitVec.getLsbD_extractLsb', asOutput_bit _ _ _ (by omega), if_neg (by omega)]

/-! ## The pin events -/

theorem memRead_fselAddrOf (c : Config) (p : Pin) (k : RegBlock) :
    Ops.memRead c (Ops.fselAddrOf c p) k = some k.fsel[fselOf p] := by
  simp [Ops.memRead]

theorem memWrite_fselAddrOf (c : Config) (p : Pin) (v : Word) (k : RegBlock) :
    Ops.memWrite c (Ops.fselAddrOf c p) v k = Ops.writeReg (.fsel (fselOf p)) v k := by
  simp [Ops.memWrite]

theorem cfgRead_eq (c : Config) {l : Line} {p : Pin} (h : c.pin? l = some p) (k : RegBlock) :
    Ops.cfgRead c l k = some k.fsel[fselOf p] := by
  simp [Ops.cfgRead, h, memRead_fselAddrOf]

theorem cfgWrite_eq (c : Config) {l : Line} {p : Pin} (h : c.pin? l = some p) (w : Word) (k : RegBlock) :
    Ops.cfgWrite c l w k = Ops.writeReg (.fsel (fselOf p)) (Ops.asOutput p w) k := by
  simp [Ops.cfgWrite, h, memWrite_fselAddrOf]

/-- CFG of a line that exists: its word, read and written back with the field made `0b001` (R100). -/
theorem applyEvent_cfg (c : Config) {l : Line} {p : Pin} (h : c.pin? l = some p) (k : RegBlock) :
    Ops.applyEvent c (.cfg l) k =
      Ops.writeReg (.fsel (fselOf p)) (Ops.asOutput p k.fsel[fselOf p]) k := by
  simp [Ops.applyEvent, cfgRead_eq c h, cfgWrite_eq c h]

/-- HI of a line that exists is one write of the pin's mask to its set word (R101). -/
theorem applyEvent_hi (c : Config) {l : Line} {p : Pin} (h : c.pin? l = some p) (k : RegBlock) :
    Ops.applyEvent c (.hi l) k = Ops.writeReg (.set (bankOf p)) (Ops.pinMask p) k := by
  simp [Ops.applyEvent, h, Ops.memWrite]

/-- LO of a line that exists is one write of the pin's mask to its clear word (R102). -/
theorem applyEvent_lo (c : Config) {l : Line} {p : Pin} (h : c.pin? l = some p) (k : RegBlock) :
    Ops.applyEvent c (.lo l) k = Ops.writeReg (.clr (bankOf p)) (Ops.pinMask p) k := by
  simp [Ops.applyEvent, h, Ops.memWrite]

/-- An event on a line that does not exist does nothing (R6). -/
theorem applyEvent_absent (c : Config) {l : Line} (h : c.pin? l = none) (k : RegBlock) :
    Ops.applyEvent c (.cfg l) k = k ∧ Ops.applyEvent c (.hi l) k = k ∧ Ops.applyEvent c (.lo l) k = k := by
  simp [Ops.applyEvent, Ops.cfgRead, h]

@[simp] theorem applyEvent_wait (c : Config) (d : DelayClass) (k : RegBlock) :
    Ops.applyEvent c (.wait d) k = k := rfl

theorem mask_hits_iff (p q : Pin) :
    (q.val / 32 = (bankOf p).val ∧ (Ops.pinMask p).getLsbD (q.val % 32) = true) ↔ q = p := by
  rw [pinMask_bit p _ (Nat.mod_lt _ (by decide)), decide_eq_true_eq, Fin.ext_iff]
  simp only [bankOf]
  omega

/-- HI makes its own pin high and changes no other level (R101, R103). -/
theorem level_hi (c : Config) {l : Line} {p : Pin} (h : c.pin? l = some p) (k : RegBlock) (q : Pin) :
    Ops.level (Ops.applyEvent c (.hi l) k) q = if q = p then .high else Ops.level k q := by
  rw [applyEvent_hi c h, level_writeSet]
  simp only [mask_hits_iff]

/-- LO makes its own pin low and changes no other level (R102, R103). -/
theorem level_lo (c : Config) {l : Line} {p : Pin} (h : c.pin? l = some p) (k : RegBlock) (q : Pin) :
    Ops.level (Ops.applyEvent c (.lo l) k) q = if q = p then .low else Ops.level k q := by
  rw [applyEvent_lo c h, level_writeClr]
  simp only [mask_hits_iff]

/-- CFG changes no level (R103). -/
@[simp] theorem level_cfg (c : Config) (l : Line) (k : RegBlock) (q : Pin) :
    Ops.level (Ops.applyEvent c (.cfg l) k) q = Ops.level k q := by
  cases h : c.pin? l with
  | none => rw [(applyEvent_absent c h k).1]
  | some p => rw [applyEvent_cfg c h, level_writeFsel]

/-- CFG makes its own pin an output and changes no other mode (R100, R103). -/
theorem mode_cfg (c : Config) {l : Line} {p : Pin} (h : c.pin? l = some p) (k : RegBlock) (q : Pin) :
    Ops.mode (Ops.applyEvent c (.cfg l) k) q = if q = p then 1 else Ops.mode k q := by
  rw [applyEvent_cfg c h, mode_writeFsel]
  by_cases hq : q = p
  · subst hq
    simp [fselOf, asOutput_field]
  · rw [if_neg hq]
    by_cases hw : q.val / 10 = (fselOf p).val
    · have hw' : q.val / 10 = p.val / 10 := hw
      have hne : q.val ≠ p.val := fun he => hq (Fin.ext he)
      have hsq := fieldShift_lt q
      rw [if_pos hw, asOutput_other p _ _ (by omega) (by unfold Ops.fieldShift; omega)]
      simp only [Ops.mode, Fin.getElem_fin, hw']
      rfl
    · rw [if_neg hw]

/-- A level event changes no function-select word (R103). -/
@[simp] theorem fsel_hi (c : Config) (l : Line) (k : RegBlock) : (Ops.applyEvent c (.hi l) k).fsel = k.fsel := by
  cases h : c.pin? l with
  | none => rw [(applyEvent_absent c h k).2.1]
  | some p => rw [applyEvent_hi c h, fsel_writeSet]

/-- A level event changes no function-select word (R103). -/
@[simp] theorem fsel_lo (c : Config) (l : Line) (k : RegBlock) : (Ops.applyEvent c (.lo l) k).fsel = k.fsel := by
  cases h : c.pin? l with
  | none => rw [(applyEvent_absent c h k).2.2]
  | some p => rw [applyEvent_lo c h, fsel_writeClr]

theorem mode_congr {k k' : RegBlock} (h : k.fsel = k'.fsel) (p : Pin) : Ops.mode k p = Ops.mode k' p := by
  simp only [Ops.mode, h]

/-! ## Lists of events -/

/-- The level of a pin after one event: what the event does to the line the pin is assigned to, if any (R103). -/
theorem level_applyEvent_other (c : Config) (e : PinEvent) (k : RegBlock) (q : Pin)
    (h : ∀ l, c.pin? l = some q → e ≠ .hi l ∧ e ≠ .lo l) :
    Ops.level (Ops.applyEvent c e k) q = Ops.level k q := by
  cases e with
  | cfg l => simp
  | wait d => rfl
  | hi l =>
    cases hp : c.pin? l with
    | none => rw [(applyEvent_absent c hp k).2.1]
    | some p =>
      rw [level_hi c hp, if_neg]
      intro he
      subst he
      exact (h l hp).1 rfl
  | lo l =>
    cases hp : c.pin? l with
    | none => rw [(applyEvent_absent c hp k).2.2]
    | some p =>
      rw [level_lo c hp, if_neg]
      intro he
      subst he
      exact (h l hp).2 rfl

/-- A list that never drives the line of a pin leaves the pin's level (R103). -/
theorem level_applyEvents_other (c : Config) (es : List PinEvent) (k : RegBlock) (q : Pin)
    (h : ∀ l, c.pin? l = some q → PinEvent.hi l ∉ es ∧ PinEvent.lo l ∉ es) :
    Ops.level (applyEvents c es k) q = Ops.level k q := by
  induction es generalizing k with
  | nil => rfl
  | cons e es ih =>
    rw [applyEvents_cons, ih]
    · apply level_applyEvent_other
      intro l hl
      have := h l hl
      simp only [List.mem_cons, not_or] at this
      exact ⟨fun he => this.1.1 he.symm, fun he => this.2.1 he.symm⟩
    · intro l hl
      have := h l hl
      simp only [List.mem_cons, not_or] at this
      exact ⟨this.1.2, this.2.2⟩

/-- The mode of a pin after an event that does not configure its line (R103). -/
theorem mode_applyEvent_other (c : Config) (e : PinEvent) (k : RegBlock) (q : Pin)
    (h : ∀ l, c.pin? l = some q → e ≠ .cfg l) :
    Ops.mode (Ops.applyEvent c e k) q = Ops.mode k q := by
  cases e with
  | wait d => rfl
  | hi l => exact mode_congr (fsel_hi c l k) q
  | lo l => exact mode_congr (fsel_lo c l k) q
  | cfg l =>
    cases hp : c.pin? l with
    | none => rw [(applyEvent_absent c hp k).1]
    | some p =>
      rw [mode_cfg c hp, if_neg]
      intro he
      subst he
      exact h l hp rfl

/-- A list that never configures the line of a pin leaves the pin's mode (R103). -/
theorem mode_applyEvents_other (c : Config) (es : List PinEvent) (k : RegBlock) (q : Pin)
    (h : ∀ l, c.pin? l = some q → PinEvent.cfg l ∉ es) :
    Ops.mode (applyEvents c es k) q = Ops.mode k q := by
  induction es generalizing k with
  | nil => rfl
  | cons e es ih =>
    rw [applyEvents_cons, ih]
    · apply mode_applyEvent_other
      intro l hl
      have := h l hl
      simp only [List.mem_cons, not_or] at this
      exact fun he => this.1 he.symm
    · intro l hl
      have := h l hl
      simp only [List.mem_cons, not_or] at this
      exact this.2

/-- An output stays an output whatever the event (R103: no event but CFG touches a mode). -/
theorem mode_output_stays (c : Config) (e : PinEvent) (k : RegBlock) (q : Pin) (h : Ops.mode k q = 1) :
    Ops.mode (Ops.applyEvent c e k) q = 1 := by
  by_cases he : ∃ l, c.pin? l = some q ∧ e = .cfg l
  · obtain ⟨l, hl, rfl⟩ := he
    simp [mode_cfg c hl]
  · rw [mode_applyEvent_other c e k q fun l hl hc => he ⟨l, hl, hc⟩, h]

theorem mode_output_stays_all (c : Config) (es : List PinEvent) (k : RegBlock) (q : Pin) (h : Ops.mode k q = 1) :
    Ops.mode (applyEvents c es k) q = 1 := by
  induction es generalizing k with
  | nil => exact h
  | cons e es ih => exact ih _ (mode_output_stays c e k q h)

/-- An event either leaves a pin's mode or makes the pin an output. -/
theorem mode_applyEvent_cases (c : Config) (e : PinEvent) (k : RegBlock) (q : Pin) :
    Ops.mode (Ops.applyEvent c e k) q = Ops.mode k q ∨ Ops.mode (Ops.applyEvent c e k) q = 1 := by
  by_cases he : ∃ l, c.pin? l = some q ∧ e = .cfg l
  · obtain ⟨l, hl, rfl⟩ := he
    simp [mode_cfg c hl]
  · exact .inl (mode_applyEvent_other c e k q fun l hl hc => he ⟨l, hl, hc⟩)

/-! ## Levels that have reached the line, event by event (U10) -/

/-- HI of a line whose pin is an output reaches the line. -/
theorem shown_hi (c : Config) {l : Line} {p : Pin} (h : c.pin? l = some p) (k : RegBlock) (q : Pin) :
    Ops.shown (Ops.applyEvent c (.hi l) k) q = if q = p ∧ Ops.mode k q = 1 then true else Ops.shown k q := by
  rw [applyEvent_hi c h, shown_writeSet]
  simp only [mask_hits_iff]

/-- LO of a line whose pin is an output reaches the line. -/
theorem shown_lo (c : Config) {l : Line} {p : Pin} (h : c.pin? l = some p) (k : RegBlock) (q : Pin) :
    Ops.shown (Ops.applyEvent c (.lo l) k) q = if q = p ∧ Ops.mode k q = 1 then true else Ops.shown k q := by
  rw [applyEvent_lo c h, shown_writeClr]
  simp only [mask_hits_iff]

/-- CFG leaves what has reached the line of a pin whose mode it leaves; a pin it makes an output awaits a write. -/
theorem shown_cfg (c : Config) (l : Line) (k : RegBlock) (q : Pin) :
    Ops.shown (Ops.applyEvent c (.cfg l) k) q =
      if Ops.mode (Ops.applyEvent c (.cfg l) k) q = Ops.mode k q then Ops.shown k q else false := by
  cases h : c.pin? l with
  | none => simp [(applyEvent_absent c h k).1]
  | some p => rw [applyEvent_cfg c h, shown_writeFsel]

/-- An event that does not drive a pin's line leaves what has reached it, unless the pin's mode changes. -/
theorem shown_applyEvent_other (c : Config) (e : PinEvent) (k : RegBlock) (q : Pin)
    (h : ∀ l, c.pin? l = some q → e ≠ .hi l ∧ e ≠ .lo l)
    (hm : Ops.mode (Ops.applyEvent c e k) q = Ops.mode k q) :
    Ops.shown (Ops.applyEvent c e k) q = Ops.shown k q := by
  cases e with
  | wait d => rfl
  | cfg l => rw [shown_cfg, if_pos hm]
  | hi l =>
    cases hp : c.pin? l with
    | none => rw [(applyEvent_absent c hp k).2.1]
    | some p =>
      rw [shown_hi c hp, if_neg]
      rintro ⟨rfl, -⟩
      exact (h l hp).1 rfl
  | lo l =>
    cases hp : c.pin? l with
    | none => rw [(applyEvent_absent c hp k).2.2]
    | some p =>
      rw [shown_lo c hp, if_neg]
      rintro ⟨rfl, -⟩
      exact (h l hp).2 rfl

/-- A list that never drives a pin's line leaves what has reached it, unless the pin's mode changes. -/
theorem shown_applyEvents_other (c : Config) (es : List PinEvent) (k : RegBlock) (q : Pin)
    (h : ∀ l, c.pin? l = some q → PinEvent.hi l ∉ es ∧ PinEvent.lo l ∉ es)
    (hm : Ops.mode (applyEvents c es k) q = Ops.mode k q) :
    Ops.shown (applyEvents c es k) q = Ops.shown k q := by
  induction es generalizing k with
  | nil => rfl
  | cons e es ih =>
    have hrest : ∀ l, c.pin? l = some q → PinEvent.hi l ∉ es ∧ PinEvent.lo l ∉ es := fun l hl =>
      ⟨fun hi => (h l hl).1 (List.mem_cons_of_mem _ hi), fun hi => (h l hl).2 (List.mem_cons_of_mem _ hi)⟩
    have he : Ops.mode (Ops.applyEvent c e k) q = Ops.mode k q := by
      rcases mode_applyEvent_cases c e k q with he | he
      · exact he
      · rw [applyEvents_cons, mode_output_stays_all c es _ q he] at hm
        rw [he, hm]
    rw [applyEvents_cons] at hm ⊢
    rw [ih _ hrest (hm.trans he.symm), shown_applyEvent_other c e k q _ he]
    exact fun l hl => ⟨fun hc => (h l hl).1 (hc ▸ List.mem_cons_self), fun hc => (h l hl).2 (hc ▸ List.mem_cons_self)⟩

/-- A list without CFG leaves every function-select word. -/
theorem fsel_applyEvents (c : Config) (es : List PinEvent) (k : RegBlock) (h : ∀ l, PinEvent.cfg l ∉ es) :
    (applyEvents c es k).fsel = k.fsel := by
  induction es generalizing k with
  | nil => rfl
  | cons e es ih =>
    rw [applyEvents_cons, ih]
    · cases e with
      | wait d => rfl
      | hi l => simp
      | lo l => simp
      | cfg l => exact absurd (List.mem_cons_self) (h l)
    · intro l hl
      exact h l (List.mem_cons_of_mem _ hl)

/-- After a list the line has the level of its last drive in it. -/
theorem level_last (c : Config) (as bs : List PinEvent) (l : Line) (p : Pin) (k : RegBlock)
    (hp : c.pin? l = some p) (b : Bool) (h : PinEvent.hi l ∉ bs ∧ PinEvent.lo l ∉ bs) :
    Ops.level (applyEvents c (as ++ Claims.drive b l :: bs) k) p = if b then .high else .low := by
  rw [applyEvents_append, applyEvents_cons, level_applyEvents_other]
  · cases b
    · simp [Claims.drive, level_lo c hp]
    · simp [Claims.drive, level_hi c hp]
  · intro l' hl'
    rw [pin_injective c hl' hp]
    exact h

end Sys2Proof.Laws
end

