-- ==== Sys2Proof/Laws/Encoding.lean ====
section
/-! SUPPORT. The two fields of a request word: an encoded request's fields are its operation code and its operand (R72), and
the request read from two fields has those fields. -/

namespace Sys2Proof.Laws

theorem requestOp_encode (i : Instr) : requestOp (encode i) = opcode i := by
  unfold requestOp encode
  apply BitVec.eq_of_getLsbD_eq
  intro j hj
  simp only [BitVec.getLsbD_extractLsb', BitVec.getLsbD_append]
  simp [hj]

theorem requestArg_encode (i : Instr) : requestArg (encode i) = i.arg := by
  unfold requestArg encode
  apply BitVec.eq_of_getLsbD_eq
  intro j hj
  simp only [BitVec.getLsbD_extractLsb', BitVec.getLsbD_append]
  simp [hj]

/-- Every operation code stands for one request (R72, R74). -/
theorem decodeFields_fields (op : BitVec 4) (arg : Byte) :
    opcode (decodeFields op arg) = op ∧ (decodeFields op arg).arg = arg := by
  have h : ∀ n : Fin 16, opcode (decodeFields (BitVec.ofFin n) arg) = BitVec.ofFin n ∧
      (decodeFields (BitVec.ofFin n) arg).arg = arg := by
    intro n
    fin_cases n <;> exact ⟨rfl, rfl⟩
  exact h op.toFin

end Sys2Proof.Laws
end

