-- ==== Sys2Proof/Laws/Levels.lean ====
section
/-! SUPPORT. The level of a line after a list of events is that of its last drive in the list; the last drives of the spec's
lists; and the same for modes. -/

namespace Sys2Proof.Laws

open Machine

/-- The last drive of a line in a list of events, if there is one. -/
def lastDrive (l : Line) : List PinEvent → Option Bool
  | [] => none
  | .hi l' :: es => (lastDrive l es).or (if l' = l then some true else none)
  | .lo l' :: es => (lastDrive l es).or (if l' = l then some false else none)
  | .cfg _ :: es => lastDrive l es
  | .wait _ :: es => lastDrive l es

theorem lastDrive_append (l : Line) (as bs : List PinEvent) :
    lastDrive l (as ++ bs) = (lastDrive l bs).or (lastDrive l as) := by
  induction as with
  | nil => simp [lastDrive]
  | cons a as ih => cases a <;> simp [lastDrive, ih, Option.or_assoc]

@[simp] theorem lastDrive_drive (l l' : Line) (b : Bool) (es : List PinEvent) :
    lastDrive l (Claims.drive b l' :: es) = (lastDrive l es).or (if l' = l then some b else none) := by
  cases b <;> rfl

/-- The level a drive leaves. -/
def driven (x : Level) : Option Bool → Level
  | some true => .high
  | some false => .low
  | none => x

/-- The level of a line's pin after a list of events (R101 to R103). -/
theorem level_applyEvents (c : Config) {l : Line} {p : Pin} (hp : c.pin? l = some p) (es : List PinEvent)
    (k : RegBlock) : Ops.level (applyEvents c es k) p = driven (Ops.level k p) (lastDrive l es) := by
  induction es generalizing k with
  | nil => rfl
  | cons e es ih =>
    rw [applyEvents_cons, ih]
    have other : ∀ l', c.pin? l' = some p → l' = l := fun l' h => pin_injective c h hp
    cases e with
    | wait d => rfl
    | cfg l' => simp [lastDrive]
    | hi l' =>
      by_cases hl : l' = l
      · subst hl
        rw [level_hi c hp, if_pos rfl]
        rcases h : lastDrive l' es with _ | _ | _ <;> simp [lastDrive, driven, h]
      · rw [level_applyEvent_other c _ _ _ (fun l'' h => by
          rw [other l'' h]; exact ⟨fun he => hl (by simpa using he), by simp⟩)]
        simp [lastDrive, hl]
    | lo l' =>
      by_cases hl : l' = l
      · subst hl
        rw [level_lo c hp, if_pos rfl]
        rcases h : lastDrive l' es with _ | _ | _ <;> simp [lastDrive, driven, h]
      · rw [level_applyEvent_other c _ _ _ (fun l'' h => by
          rw [other l'' h]; exact ⟨by simp, fun he => hl (by simpa using he)⟩)]
        simp [lastDrive, hl]

/-- The mode of a line's pin after a list of events: output if the list configures the line (R100, R103). -/
theorem mode_applyEvents (c : Config) {l : Line} {p : Pin} (hp : c.pin? l = some p) (es : List PinEvent)
    (k : RegBlock) : Ops.mode (applyEvents c es k) p = if PinEvent.cfg l ∈ es then 1 else Ops.mode k p := by
  induction es generalizing k with
  | nil => rfl
  | cons e es ih =>
    rw [applyEvents_cons, ih]
    by_cases he : e = .cfg l
    · subst he
      simp [mode_cfg c hp]
    · rw [mode_applyEvent_other c e k p fun l' h => by rw [pin_injective c h hp]; exact he]
      simp [Ne.symm he]

/-- A function-select word after one event: as before, or with a field of one of its pins made an output (R100). -/
theorem fsel_applyEvent (c : Config) (e : PinEvent) (k : RegBlock) (b : Fin 7) :
    (Ops.applyEvent c e k).fsel[b] = k.fsel[b] ∨
      ∃ l p, e = .cfg l ∧ c.pin? l = some p ∧ fselOf p = b ∧
        (Ops.applyEvent c e k).fsel[b] = Ops.asOutput p k.fsel[b] := by
  cases e with
  | wait d => exact .inl rfl
  | hi l => simp
  | lo l => simp
  | cfg l =>
    cases hp : c.pin? l with
    | none => rw [(applyEvent_absent c hp k).1]; exact .inl rfl
    | some p =>
      by_cases hb : fselOf p = b
      · subst hb
        refine .inr ⟨l, p, rfl, hp, rfl, ?_⟩
        rw [applyEvent_cfg c hp]
        simp
      · refine .inl ?_
        rw [applyEvent_cfg c hp]
        have : (fselOf p).val ≠ b.val := fun h => hb (Fin.ext h)
        simp [this]

/-- Bits 31:30 of a function-select word belong to no pin and are written back as read (R45, R100). -/
theorem top_applyEvents (c : Config) (es : List PinEvent) (k : RegBlock) (b : Fin 7) :
    (applyEvents c es k).fsel[b].extractLsb' 30 2 = k.fsel[b].extractLsb' 30 2 := by
  induction es generalizing k with
  | nil => rfl
  | cons e es ih =>
    rw [applyEvents_cons, ih]
    rcases fsel_applyEvent c e k b with h | ⟨l, p, -, -, -, h⟩
    · rw [h]
    · rw [h]
      have hs := fieldShift_lt p
      apply BitVec.eq_of_getLsbD_eq
      intro i hi
      rw [BitVec.getLsbD_extractLsb', BitVec.getLsbD_extractLsb', asOutput_bit _ _ _ (by omega), if_neg (by omega)]

/-- A function-select word that holds no bus pin's field stays as it was. -/
theorem word_applyEvents (c : Config) (es : List PinEvent) (k : RegBlock) (b : Fin 7)
    (h : ∀ l p, c.pin? l = some p → fselOf p ≠ b) : (applyEvents c es k).fsel[b] = k.fsel[b] := by
  induction es generalizing k with
  | nil => rfl
  | cons e es ih =>
    rw [applyEvents_cons, ih]
    rcases fsel_applyEvent c e k b with he | ⟨l, p, -, hp, hb, -⟩
    · exact he
    · exact absurd hb (h l p hp)

/-- The six lines that always exist have a pin. -/
theorem pin_of_busLine (c : Config) {l : Line} (h : l ∈ Claims.busLines) : ∃ p, c.pin? l = some p := by
  simp only [Claims.busLines, List.mem_cons, List.not_mem_nil, or_false] at h
  rcases h with h | h | h | h | h | h <;> subst h <;> exact ⟨_, rfl⟩

/-- `lvl(l)` after a list of events, for a line of the command and data writes. -/
theorem lvl_of_block {s t : State} {es : List PinEvent} (hc : t.cfg = s.cfg)
    (hb : t.block = applyEvents s.cfg es s.block) {l : Line} (hl : l ∈ Claims.busLines) :
    Observe.lvl t l = driven (Observe.lvl s l) (lastDrive l es) := by
  obtain ⟨p, hp⟩ := pin_of_busLine s.cfg hl
  simp only [Observe.lvl, hc, hp, hb]
  exact level_applyEvents s.cfg hp es s.block

/-! ## The lines as the display sees them (R23, U10) -/

/-- A line whose level has reached it shows that level, whatever is drawn (R23). -/
theorem seen_determined (draw : Line → Bool) {s : State} {l : Line} (h : Observe.determined s l = true) {b : Bool}
    (hl : Observe.bit (Observe.lvl s l) = some b) : Observe.seen draw s l = b := by
  cases hp : s.cfg.pin? l with
  | none => simp [Observe.determined, hp] at h
  | some p => simp [Observe.seen, hp, h, hl]

/-- A line whose level has not reached it is what is drawn: any value (U10). -/
theorem seen_open (draw : Line → Bool) {s : State} {l : Line} {p : Pin} (hp : s.cfg.pin? l = some p)
    (h : Observe.determined s l = false) : Observe.seen draw s l = draw l := by
  simp [Observe.seen, hp, h]

/-- Without `PIN_RW` the display's read/write pin is tied to the write level (R126). -/
theorem seen_tied (draw : Line → Bool) {s : State} (h : s.cfg.params.bus.rw = none) :
    Observe.seen draw s .rw = s.cfg.params.rwWriteLevel := by
  simp [Observe.seen, Config.pin?, BusAssignment.pin?, h]

/-- After HI or LO of a line whose pin is an output the display sees what was driven, whatever is drawn (R23, R49). -/
theorem seen_after_drive (draw : Line → Bool) (s : State) {l : Line} {p : Pin} (hp : s.cfg.pin? l = some p)
    (ho : Observe.out s l = true) (b : Bool) :
    Observe.seen draw { s with block := Ops.applyEvent s.cfg (Claims.drive b l) s.block } l = b := by
  simp only [Observe.out, hp, beq_iff_eq] at ho
  cases b
  · apply seen_determined
    · simp [Observe.determined, Observe.out, hp, Claims.drive, mode_congr (fsel_lo s.cfg l s.block) p, ho,
        shown_lo s.cfg hp]
    · simp [Observe.lvl, hp, Claims.drive, level_lo s.cfg hp, Observe.bit]
  · apply seen_determined
    · simp [Observe.determined, Observe.out, hp, Claims.drive, mode_congr (fsel_hi s.cfg l s.block) p, ho,
        shown_hi s.cfg hp]
    · simp [Observe.lvl, hp, Claims.drive, level_hi s.cfg hp, Observe.bit]

/-- Four known bits of a nibble are the nibble. -/
theorem nibble_bits (n : Nibble) :
    Observe.nibble (driven .unknown (some (n.getLsbD 3))) (driven .unknown (some (n.getLsbD 2)))
      (driven .unknown (some (n.getLsbD 1))) (driven .unknown (some (n.getLsbD 0))) = some n := by
  revert n; decide

theorem driven_some (x y : Level) (b : Bool) : driven x (some b) = driven y (some b) := by cases b <;> rfl

/-- `bus` after a list whose last drives of the data lines are the bits of a nibble (R23). -/
theorem bus_of_block {s t : State} {es : List PinEvent} (hc : t.cfg = s.cfg)
    (hb : t.block = applyEvents s.cfg es s.block) (n : Nibble)
    (h0 : lastDrive .d0 es = some (n.getLsbD 0)) (h1 : lastDrive .d1 es = some (n.getLsbD 1))
    (h2 : lastDrive .d2 es = some (n.getLsbD 2)) (h3 : lastDrive .d3 es = some (n.getLsbD 3)) :
    Observe.bus t = some n := by
  simp only [Observe.bus]
  rw [lvl_of_block hc hb (l := .d0) (by decide), lvl_of_block hc hb (l := .d1) (by decide),
    lvl_of_block hc hb (l := .d2) (by decide), lvl_of_block hc hb (l := .d3) (by decide), h0, h1, h2, h3,
    driven_some (Observe.lvl s .d0) .unknown, driven_some (Observe.lvl s .d1) .unknown,
    driven_some (Observe.lvl s .d2) .unknown, driven_some (Observe.lvl s .d3) .unknown, nibble_bits]

/-! ## The last drives of the spec's lists -/

/-- The drive of each line that one command write leaves standing. -/
def wrcmdDrive (n : Nibble) : Line → Option Bool
  | .d0 => some (n.getLsbD 0)
  | .d1 => some (n.getLsbD 1)
  | .d2 => some (n.getLsbD 2)
  | .d3 => some (n.getLsbD 3)
  | .rs => some false
  | .en => some false
  | .rw => none

theorem lastDrive_wrcmd (l : Line) (n : Nibble) : lastDrive l (Claims.wrcmd n) = wrcmdDrive n l := by
  cases l <;> simp [Claims.wrcmd, Claims.busUpd, Claims.pulse, lastDrive, wrcmdDrive]

theorem lastDrive_wrdata (l : Line) (v : Byte) :
    lastDrive l (Claims.wrdata v) = if l = .rs then some true else wrcmdDrive (Claims.low v) l := by
  cases l <;> simp [Claims.wrdata, Claims.busUpd, Claims.pulse, lastDrive, wrcmdDrive]

theorem lastDrive_cmdSeq (l : Line) (codes : List Nibble) (c : DelayClass) :
    lastDrive l (Claims.cmdSeq codes c) = codes.getLast?.bind (wrcmdDrive · l) := by
  induction codes with
  | nil => rfl
  | cons n ns ih =>
    rw [Claims.cmdSeq, lastDrive_append, ih, lastDrive_wrcmd]
    cases ns with
    | nil => rfl
    | cons m ms =>
      cases h : (m :: ms).getLast? with
      | none => simp at h
      | some x =>
        have hx : (n :: m :: ms).getLast? = some x := by simpa using h
        rw [hx]
        cases l <;> rfl

/-- INIT leaves the drives of its last command nibble standing. -/
theorem lastDrive_init (l : Line) (p : Params) (n : Nibble) (h : p.line1.getLast? = some n) :
    lastDrive l (Claims.init p) = wrcmdDrive n l := by
  simp only [Claims.init, lastDrive_append, lastDrive_cmdSeq, h]
  cases l <;> simp [wrcmdDrive]

/-! ## What the lists do not contain -/

theorem cfg_not_mem_wrcmd (l : Line) (n : Nibble) : PinEvent.cfg l ∉ Claims.wrcmd n := by
  have hd : ∀ b l', PinEvent.cfg l ≠ Claims.drive b l' := by intro b l'; cases b <;> simp [Claims.drive]
  simp [Claims.wrcmd, Claims.busUpd, Claims.pulse, hd]

theorem cfg_not_mem_cmdSeq (l : Line) (codes : List Nibble) (c : DelayClass) :
    PinEvent.cfg l ∉ Claims.cmdSeq codes c := by
  induction codes with
  | nil => simp [Claims.cmdSeq]
  | cons n ns ih => simp [Claims.cmdSeq, cfg_not_mem_wrcmd, ih]

/-- Only CONFIG configures a line. -/
theorem cfg_not_mem_events (l : Line) (p : Params) (i : Instr) (h : opcode i ≠ 0x1) :
    PinEvent.cfg l ∉ Claims.events p i := by
  have hd : ∀ b l', PinEvent.cfg l ≠ Claims.drive b l' := by intro b l'; cases b <;> simp [Claims.drive]
  cases i <;> simp [Claims.events, Claims.init, cfg_not_mem_cmdSeq, cfg_not_mem_wrcmd] <;>
    simp [opcode] at h
  simp [Claims.wrdata, Claims.busUpd, Claims.pulse, hd]

theorem lastDrive_none_iff (l : Line) (es : List PinEvent) :
    lastDrive l es = none ↔ PinEvent.hi l ∉ es ∧ PinEvent.lo l ∉ es := by
  induction es with
  | nil => simp [lastDrive]
  | cons e es ih =>
    cases e with
    | wait c => simp [lastDrive, ih]
    | cfg l' => simp [lastDrive, ih]
    | hi l' =>
      by_cases h : l' = l
      · subst h; cases hh : lastDrive l' es <;> simp [lastDrive, hh]
      · cases hh : lastDrive l es with
        | none => simp [lastDrive, hh, h, ih.mp hh, Ne.symm h]
        | some b =>
          have : ¬(PinEvent.hi l ∉ es ∧ PinEvent.lo l ∉ es) := fun hc => by simp [ih.mpr hc] at hh
          simp [lastDrive, hh, Ne.symm h]
          tauto
    | lo l' =>
      by_cases h : l' = l
      · subst h; cases hh : lastDrive l' es <;> simp [lastDrive, hh]
      · cases hh : lastDrive l es with
        | none => simp [lastDrive, hh, h, ih.mp hh, Ne.symm h]
        | some b =>
          have : ¬(PinEvent.hi l ∉ es ∧ PinEvent.lo l ∉ es) := fun hc => by simp [ih.mpr hc] at hh
          simp [lastDrive, hh, Ne.symm h]
          tauto

/-- No request but CONFIG drives RW (R126). -/
theorem rw_not_driven (p : Params) (i : Instr) (h : opcode i ≠ 0x1) :
    lastDrive .rw (Claims.events p i) = none := by
  cases i <;> simp [Claims.events, Claims.init, lastDrive_append, lastDrive_cmdSeq, lastDrive_wrcmd,
    lastDrive_wrdata, wrcmdDrive, lastDrive]
  simp [opcode] at h

/-- CONFIG drives no line but RW (R125). -/
theorem config_drives_only_rw (p : Params) (l : Line) (h : l ≠ .rw) : lastDrive l (Claims.config p) = none := by
  unfold Claims.config Claims.rwEvents
  split <;> simp [lastDrive, Ne.symm h]

end Sys2Proof.Laws
end

