-- ==== Sys2Proof/Laws/Requests.lean ====
section
/-! SUPPORT. The state a request leaves at an idle block, field by field, said once for all sixteen requests; and the frames of
the spec's event lists (R82). -/

namespace Sys2Proof.Laws

open Machine

/-- The state a request leaves at an idle block. -/
def finished (i : Instr) (s : State) : State :=
  Ops.complete (Ops.performAll (Clock.program s.cfg.params (opcode i) i.arg) (Ops.accept (opcode i) i.arg s))

/-- A request at an idle block completes (R71, R174). -/
theorem exec_idle (i : Instr) {s : State} (h : s.busy = false) : exec i s = .next (finished i s) := by
  rw [exec_eq]
  simp [h, finished]

/-- A request at a busy block has no effect (R71). -/
theorem exec_busy (i : Instr) {s : State} (h : s.busy = true) : exec i s = .next s := by
  rw [exec_eq]
  simp [h]

@[simp] theorem finished_cfg (i : Instr) (s : State) : (finished i s).cfg = s.cfg := by simp [finished]

@[simp] theorem finished_op (i : Instr) (s : State) : (finished i s).op = opcode i := by simp [finished]

@[simp] theorem finished_arg (i : Instr) (s : State) : (finished i s).arg = i.arg := by simp [finished]

@[simp] theorem finished_busy (i : Instr) (s : State) : (finished i s).busy = false := by simp [finished]

@[simp] theorem finished_trace (i : Instr) (s : State) :
    (finished i s).trace = s.trace ++ Claims.events s.cfg.params i := by
  simp [finished, events_program]

@[simp] theorem finished_block (i : Instr) (s : State) :
    (finished i s).block = applyEvents s.cfg (Claims.events s.cfg.params i) s.block := by
  simp [finished, events_program]

@[simp] theorem finished_upc (i : Instr) (s : State) :
    (finished i s).upc = (Claims.events s.cfg.params i).length := by
  simp [finished, ← events_program s.nib, events_length]

theorem finished_dly (i : Instr) (s : State) :
    (finished i s).dly = (Claims.events s.cfg.params i).foldl (fun d e => Ops.dlyAfter e d) s.dly := by
  simp [finished, performAll_dly, events_program]

theorem finished_nib (i : Instr) (s : State) :
    (finished i s).nib = (Clock.program s.cfg.params (opcode i) i.arg).foldl Operands.nibAfter s.nib := by
  simp [finished]

@[simp] theorem finished_viol (i : Instr) (s : State) :
    (finished i s).viol = (s.viol || Flags.violates (opcode i) s.phase) := by
  simp [finished]

@[simp] theorem finished_ill (i : Instr) (s : State) :
    (finished i s).ill = (s.ill || Flags.reservedOp (opcode i)) := by
  simp [finished]

@[simp] theorem finished_phase (i : Instr) (s : State) :
    (finished i s).phase = Flags.phaseAfter (opcode i) s.phase := by
  simp [finished]

/-- No request touches what lies outside the block. -/
theorem finished_rest (i : Instr) (s : State) : Claims.restKept s (finished i s) := by
  simp [finished, Claims.restKept]

/-- Only CONFIG changes a function-select word (R60). -/
theorem finished_fsel (i : Instr) (s : State) (h : opcode i ≠ 0x1) : (finished i s).block.fsel = s.block.fsel := by
  rw [finished_block]
  exact fsel_applyEvents _ _ _ fun l => cfg_not_mem_events l _ _ h

/-- No request but CONFIG changes a level but those of the six bus lines (R103). -/
theorem finished_levels (i : Instr) (s : State) (h : opcode i ≠ 0x1) :
    Claims.levelsKeptBut Claims.busLines s (finished i s) := by
  intro p hp
  suffices hd : ∀ l, s.cfg.pin? l = some p →
      PinEvent.hi l ∉ Claims.events s.cfg.params i ∧ PinEvent.lo l ∉ Claims.events s.cfg.params i by
    rw [finished_block]
    exact ⟨level_applyEvents_other _ _ _ _ hd, shown_applyEvents_other _ _ _ _ hd⟩
  intro l hl
  rw [← lastDrive_none_iff]
  by_cases hm : l ∈ Claims.busLines
  · exact absurd hl (hp l hm)
  · have hrw : l = .rw := by
      revert hm
      cases l <;> simp [Claims.busLines]
    subst hrw
    exact rw_not_driven _ _ h

/-! ## DLY and NIB after the spec's lists -/

theorem dlyAfter_snoc_wait (es : List PinEvent) (c : DelayClass) (d : Nat) :
    (es ++ [PinEvent.wait c]).foldl (fun d e => Ops.dlyAfter e d) d = 0 := by
  simp [List.foldl_append, Ops.dlyAfter]

theorem cmdSeq_snoc (codes : List Nibble) (c : DelayClass) :
    Claims.cmdSeq codes c = codes.flatMap Claims.wrcmd ++ [.wait c] := by
  induction codes with
  | nil => rfl
  | cons n ns ih => simp [Claims.cmdSeq, ih]

/-! ## Frames -/

/-- One command write gives one command frame (R82, R120). -/
theorem frames_wrcmd (v : LineLevels) (n : Nibble) (es : List PinEvent) :
    Observe.framesFrom v (Claims.wrcmd n ++ es) =
      .frame false n :: Observe.framesFrom
        { d0 := driven .unknown (some (n.getLsbD 0)), d1 := driven .unknown (some (n.getLsbD 1)),
          d2 := driven .unknown (some (n.getLsbD 2)), d3 := driven .unknown (some (n.getLsbD 3)),
          rs := .low, en := .low, rw := v.rw } es := by
  have hn := nibble_bits n
  simp only [Claims.wrcmd, Claims.busUpd, Claims.pulse, Claims.drive]
  cases h0 : n.getLsbD 0 <;> cases h1 : n.getLsbD 1 <;> cases h2 : n.getLsbD 2 <;> cases h3 : n.getLsbD 3 <;>
    simp_all [Observe.framesFrom, Observe.setLine, Observe.frameAt, Observe.bit, driven, Observe.longWait]

/-- CMDSEQ gives its command frames and its wait (R123). -/
theorem frames_cmdSeq (v : LineLevels) (codes : List Nibble) (c : DelayClass) (hc : Observe.longWait c = true)
    (es : List PinEvent) :
    ∃ v', Observe.framesFrom v (Claims.cmdSeq codes c ++ es) =
      Claims.cmdFrames codes c ++ Observe.framesFrom v' es := by
  induction codes generalizing v with
  | nil => exact ⟨v, by simp [Claims.cmdSeq, Claims.cmdFrames, Observe.framesFrom, hc]⟩
  | cons n ns ih =>
    rw [Claims.cmdSeq, List.append_assoc, frames_wrcmd]
    obtain ⟨v', h⟩ := ih _
    exact ⟨v', by rw [h]; rfl⟩

/-- One half of a data write gives one data frame, RS being high (R82, R121). -/
theorem frames_dataNibble (v : LineLevels) (hv : v.rs = .high) (n : Nibble) (es : List PinEvent) :
    Observe.framesFrom v (Claims.busUpd n ++ (Claims.pulse ++ es)) =
      .frame true n :: Observe.framesFrom
        { d0 := driven .unknown (some (n.getLsbD 0)), d1 := driven .unknown (some (n.getLsbD 1)),
          d2 := driven .unknown (some (n.getLsbD 2)), d3 := driven .unknown (some (n.getLsbD 3)),
          rs := .high, en := .low, rw := v.rw } es := by
  have hn := nibble_bits n
  simp only [Claims.busUpd, Claims.pulse, Claims.drive]
  cases h0 : n.getLsbD 0 <;> cases h1 : n.getLsbD 1 <;> cases h2 : n.getLsbD 2 <;> cases h3 : n.getLsbD 3 <;>
    simp_all [Observe.framesFrom, Observe.setLine, Observe.frameAt, Observe.bit, driven, Observe.longWait]

end Sys2Proof.Laws
end

