-- ==== Sys2Proof/Laws/Clock.lean ====
section
/-! SUPPORT. The clocked sequencer, said once: what completing an event does to the list, what one tick can do, and that the
ticks of one list element are the element performed. -/

namespace Sys2Proof.Laws

open Machine

/-! ## Fields the clocked operations leave alone -/

theorem list_congr {s t : State} (h1 : t.cfg = s.cfg) (h2 : t.op = s.op) (h3 : t.arg = s.arg) :
    Clock.list t = Clock.list s := by
  simp only [Clock.list, h1, h2, h3]

@[simp] theorem list_loadDelay (s : State) : Clock.list (Clock.loadDelay s) = Clock.list s :=
  list_congr (by simp) (by simp) (by simp)

@[simp] theorem list_perform (m : MicroOp) (s : State) : Clock.list (Ops.perform m s) = Clock.list s := rfl

/-- `loadDelay` changes DLY alone. -/
theorem loadDelay_eq (s : State) : Clock.loadDelay s = { s with dly := (Clock.loadDelay s).dly } := by
  unfold Clock.loadDelay
  split <;> rfl

/-- Before an event that is no wait nothing is loaded. -/
theorem loadDelay_of_not_wait {s : State} (h : ∀ c, Clock.currentEvent s ≠ some (.wait c)) :
    Clock.loadDelay s = s := by
  unfold Clock.loadDelay
  split
  · exact absurd ‹_› (h _)
  · rfl

/-- Before a wait of class `c`, DLY is loaded with `N(c)` (R180). -/
theorem loadDelay_of_wait {s : State} {c : DelayClass} (h : Clock.currentEvent s = some (.wait c)) :
    Clock.loadDelay s = { s with dly := s.cfg.params.cycles.of c } := by
  simp [Clock.loadDelay, h]

/-- Inside the list nothing completes. -/
theorem proceed_inside {s : State} (h : s.upc < (Clock.list s).length) : Clock.proceed s = Clock.loadDelay s := by
  simp [Clock.proceed, Clock.settle, h]

/-- At the end of the list the operation completes (R14). -/
theorem proceed_end {s : State} (h : (Clock.list s).length ≤ s.upc) : Clock.proceed s = Ops.complete s := by
  have hc : Clock.currentEvent s = none := by
    simp [Clock.currentEvent, Clock.current, List.getElem?_eq_none h]
  rw [Clock.proceed, loadDelay_of_not_wait (by simp [hc]), Clock.settle, if_neg (Nat.not_lt.mpr h)]

/-- What completing an event, or an acceptance, comes to: the block goes on, with DLY loaded or not, or it completes. -/
theorem proceed_cases (s : State) :
    (s.upc < (Clock.list s).length ∧ Clock.proceed s = Clock.loadDelay s) ∨
    ((Clock.list s).length ≤ s.upc ∧ Clock.proceed s = Ops.complete s) := by
  rcases Nat.lt_or_ge s.upc (Clock.list s).length with h | h
  · exact .inl ⟨h, proceed_inside h⟩
  · exact .inr ⟨h, proceed_end h⟩

/-! ## One tick -/

/-- What one tick of a busy block can do. -/
inductive TickOf (s t : State) : Prop where
  /-- Nothing is left of the list. -/
  | over (h : Clock.current s = none) (ht : t = Ops.complete s)
  /-- A cycle of a wait passes. -/
  | cycle (m : MicroOp) (c : DelayClass) (h : Clock.current s = some m) (he : Operands.event s.nib m = .wait c)
      (hd : 2 ≤ s.dly) (ht : t = { s with dly := s.dly - 1 })
  /-- CFG has read its word. -/
  | read (m : MicroOp) (l : Line) (w : Word) (h : Clock.current s = some m) (he : Operands.event s.nib m = .cfg l)
      (hr : s.rdata = none) (hw : Ops.cfgRead s.cfg l s.block = some w) (ht : t = { s with rdata := some w })
  /-- CFG writes the word it has read, and is complete. -/
  | write (m : MicroOp) (l : Line) (w : Word) (h : Clock.current s = some m) (he : Operands.event s.nib m = .cfg l)
      (hr : s.rdata = some w)
      (ht : t = Clock.proceed (Ops.record m { s with rdata := none, block := Ops.cfgWrite s.cfg l w s.block }))
  /-- The event completes in this step. -/
  | whole (m : MicroOp) (h : Clock.current s = some m)
      (he : ∀ l, Operands.event s.nib m = .cfg l → s.rdata = none ∧ Ops.cfgRead s.cfg l s.block = none)
      (hd : ∀ c, Operands.event s.nib m = .wait c → s.dly ≤ 1) (ht : t = Clock.proceed (Ops.perform m s))

theorem tick_cases (s : State) : TickOf s (Clock.tick s) := by
  unfold Clock.tick
  split
  · exact .over ‹_› rfl
  · rename_i m hm
    split
    · rename_i c he
      split
      · exact .whole m hm (by simp [he]) (fun _ _ => ‹_›) rfl
      · exact .cycle m c hm he (by omega) rfl
    · rename_i l he
      split
      · exact .write m l _ hm he ‹_› rfl
      · rename_i hr
        split
        · exact .read m l _ hm he hr ‹_› rfl
        · rename_i hw
          refine .whole m hm (fun l' h' => ?_) (by simp [he]) rfl
          rw [he] at h'
          cases h'
          exact ⟨hr, hw⟩
    · rename_i hnw hnc
      exact .whole m hm (fun l h => absurd h (hnc l)) (fun c h => absurd h (hnw c)) rfl

/-! ## The ticks of one element -/

theorem ticks_succ (n : Nat) (s : State) : Clock.ticks (n + 1) s = Clock.ticks n (Clock.tick s) := rfl

theorem ticks_add (m n : Nat) (s : State) : Clock.ticks (m + n) s = Clock.ticks n (Clock.ticks m s) := by
  induction m generalizing s with
  | zero => simp [Clock.ticks]
  | succ m ih => rw [Nat.succ_add, ticks_succ, ih, ticks_succ]

/-- The cycles of a wait, from a DLY of `d`: `d` ticks, and at least one (R180). -/
theorem ticks_wait {s : State} {m : MicroOp} {c : DelayClass} (hm : Clock.current s = some m)
    (he : Operands.event s.nib m = .wait c) (d : Nat) :
    Clock.ticks (max 1 d) { s with dly := d } = Clock.proceed (Ops.perform m s) := by
  have hcur : ∀ d, Clock.current { s with dly := d } = some m := fun d => hm
  have last : ∀ d, d ≤ 1 → Clock.tick { s with dly := d } = Clock.proceed (Ops.perform m s) := by
    intro d hd
    unfold Clock.tick
    rw [hcur d]
    simp only [he, hd, if_true]
    congr 1
    simp [Ops.perform, he, Ops.dlyAfter]
  induction d with
  | zero => exact last 0 (Nat.zero_le 1)
  | succ d ih =>
    cases d with
    | zero => exact last 1 (Nat.le_refl 1)
    | succ d =>
      have h1 : max 1 (d + 1 + 1) = max 1 (d + 1) + 1 := by omega
      rw [h1, ticks_succ, ← ih]
      congr 1
      unfold Clock.tick
      rw [hcur]
      simp [he]

/-- The ticks of one element whose CFG, if it is one, has a pin: as many as the event costs, and they perform it (R212). -/
theorem ticks_element {s : State} {m : MicroOp} (hm : Clock.current s = some m) (hr : s.rdata = none)
    (hp : ∀ l, Operands.event s.nib m = .cfg l → s.cfg.pin? l ≠ none) :
    Clock.ticks (Clock.cost s.cfg.params (Operands.event s.nib m)) (Clock.loadDelay s) =
      Clock.proceed (Ops.perform m s) := by
  have hev : Clock.currentEvent s = some (Operands.event s.nib m) := by simp [Clock.currentEvent, hm]
  cases he : Operands.event s.nib m with
  | wait c =>
    rw [loadDelay_of_wait (by rw [hev, he])]
    exact ticks_wait hm he _
  | hi l =>
    rw [loadDelay_of_not_wait (by simp [hev, he])]
    simp only [Clock.cost, Clock.ticks, Clock.tick, hm, he]
  | lo l =>
    rw [loadDelay_of_not_wait (by simp [hev, he])]
    simp only [Clock.cost, Clock.ticks, Clock.tick, hm, he]
  | cfg l =>
    rw [loadDelay_of_not_wait (by simp [hev, he])]
    obtain ⟨p, hpin⟩ := Option.ne_none_iff_exists'.mp (hp l he)
    have hread := cfgRead_eq s.cfg hpin s.block
    have h1 : Clock.tick s = { s with rdata := some s.block.fsel[fselOf p] } := by
      simp only [Clock.tick, hm, he, hr, hread]
    have hcur : Clock.current { s with rdata := some s.block.fsel[fselOf p] } = some m := hm
    simp only [Clock.cost, Clock.ticks, h1]
    unfold Clock.tick
    rw [hcur]
    simp only [he]
    congr 1
    simp [Ops.perform, Ops.record, he, Ops.applyEvent, hread, Ops.dlyAfter, hr]

/-! ## What a tick and an acceptance leave alone -/

/-- A tick changes no flag but BUSY, no parameter, nothing of the host layer, and only adds to TRACE. -/
theorem tick_frame (s : State) :
    (Clock.tick s).cfg = s.cfg ∧ (Clock.tick s).ill = s.ill ∧ (Clock.tick s).viol = s.viol ∧
    (Clock.tick s).history = s.history ∧ (Clock.tick s).trespass = s.trespass ∧
    (Clock.tick s).readCursor = s.readCursor ∧ ∃ es, (Clock.tick s).trace = s.trace ++ es := by
  rcases tick_cases s with ⟨h, ht⟩ | ⟨m, c, h, he, hd, ht⟩ | ⟨m, l, w, h, he, hr, hw, ht⟩ |
    ⟨m, l, w, h, he, hr, ht⟩ | ⟨m, h, he, hd, ht⟩ <;> rw [ht]
  · simp
  · simp
  · simp
  · simp [Clock.proceed]
  · simp [Clock.proceed]

/-- An acceptance clears no sticky flag and leaves the parameters, the host layer, TRACE and the register block. -/
theorem accept_frame (i : Instr) (s : State) :
    (Clock.accept i s).cfg = s.cfg ∧ (s.ill = true → (Clock.accept i s).ill = true) ∧
    (s.viol = true → (Clock.accept i s).viol = true) ∧ (Clock.accept i s).history = s.history ∧
    (Clock.accept i s).trespass = s.trespass ∧ (Clock.accept i s).readCursor = s.readCursor ∧
    (Clock.accept i s).trace = s.trace ∧ (Clock.accept i s).block = s.block := by
  unfold Clock.accept
  split
  · simp
  · refine ⟨by simp [Clock.proceed], fun h => ?_, fun h => ?_, ?_⟩
    · simp [Clock.proceed, h]
    · simp [Clock.proceed, h]
    · simp [Clock.proceed]

/-! ## The event at UPC -/

theorem fixed_mem_events {e : PinEvent} (ms : List MicroOp) (h : MicroOp.fixed e ∈ ms) (nib : Nibble) :
    e ∈ Operands.events nib ms := by
  induction ms generalizing nib with
  | nil => simp at h
  | cons m ms ih =>
    rw [events_cons, List.mem_cons]
    rcases List.mem_cons.mp h with h | h
    · left
      rw [← h]
      rfl
    · exact .inr (ih h _)

theorem event_cfg {nib : Nibble} {m : MicroOp} {l : Line} (h : Operands.event nib m = .cfg l) :
    m = .fixed (.cfg l) := by
  cases m with
  | fixed e => simpa [Operands.event] using h
  | bus a k =>
    simp only [Operands.event, Operands.drive] at h
    split at h <;> simp at h

/-- CFG is emitted by CONFIG alone. -/
theorem op_of_cfg {s : State} {l : Line} (h : Clock.currentEvent s = some (.cfg l)) : s.op = 0x1 := by
  simp only [Clock.currentEvent, Clock.current, Option.map_eq_some_iff] at h
  obtain ⟨m, hm, he⟩ := h
  rw [event_cfg he] at hm
  have hmem := fixed_mem_events _ (List.mem_of_getElem? hm) 0
  by_contra hne
  obtain ⟨h1, h2⟩ := decodeFields_fields s.op s.arg
  generalize decodeFields s.op s.arg = i at h1 h2
  rw [Clock.list, ← h1, ← h2, events_program] at hmem
  exact cfg_not_mem_events _ _ _ (by rw [h1]; exact hne) hmem

/-- While CONFIG is in progress the event at UPC is the one of its list (R14, R125). -/
theorem currentEvent_config {s : State} (h : s.op = 0x1) :
    Clock.currentEvent s = (Claims.config s.cfg.params)[s.upc]? := by
  have hl : Clock.list s = Protocol.configList s.cfg.params := by simp [Clock.list, Clock.program, h]
  have fixed : ∀ (ms : List MicroOp), (∀ m ∈ ms, ∃ e, m = .fixed e) → ∀ (n : Nat) (nib : Nibble),
      (Operands.events nib ms)[n]? = (ms[n]?).map (Operands.event nib) := by
    intro ms
    induction ms with
    | nil => simp
    | cons m ms ih =>
      intro hms n nib
      obtain ⟨e, rfl⟩ := hms m (by simp)
      cases n with
      | zero => simp [events_cons]
      | succ n =>
        simp only [events_cons, Operands.nibAfter, List.getElem?_cons_succ]
        exact ih (fun m hm => hms m (by simp [hm])) n nib
  rw [← events_configList s.nib, fixed, Clock.currentEvent, Clock.current, hl]
  intro m hm
  unfold Protocol.configList Protocol.rwList at hm
  cases m with
  | fixed e => exact ⟨e, rfl⟩
  | bus a b => split at hm <;> simp at hm

end Sys2Proof.Laws
end

