-- ==== Sys2Proof/Laws/Step.lean ====
section
/-! SUPPORT. What a step can do, said once: one inversion lemma for `step`, and the two ways a request word at the port is
taken. -/

namespace Sys2Proof.Laws

open Machine

/-- The state after the reset countdown has gone down by one. -/
def timed (s : State) : State := { s with rstIn := s.rstIn.map (· - 1) }

theorem timed_none {s : State} (h : s.rstIn = none) : timed s = s := by
  cases s
  simp_all [timed]

theorem arbitrate_eq (s : State) (h : s.rstIn ≠ some 0) :
    HostLayer.arbitrate s = HostLayer.unreset (timed s) := by
  unfold HostLayer.arbitrate
  split
  · exact absurd ‹_› h
  · rename_i n hn
    congr 1
    cases s
    simp_all [timed]
  · rw [timed_none ‹_›]

/-- A reset that has arrived (R176). -/
theorem step_reset {s : State} (h : s.rstIn = some 0) : step s = .next (Ops.rst s) := by
  simp [step, HostLayer.arbitrate, h]

/-- What one step can do. -/
inductive StepOf (s t : State) : Prop where
  /-- `rst` is asserted. -/
  | reset (h : s.rstIn = some 0) (ht : t = Ops.rst s)
  /-- A busy block makes one access or counts one cycle. -/
  | tick (h : s.rstIn ≠ some 0) (hb : s.busy = true) (p : List HostMove)
      (ht : t = Clock.tick { timed s with pending := p })
  /-- An idle block takes a request and runs it whole. -/
  | whole (h : s.rstIn ≠ some 0) (hb : s.busy = false) (w : Request) (hw : HostLayer.reqWord s = some w)
      (ht : exec (decodeWord w) { timed s with pending := HostLayer.afterAcceptance s.pending } = .next t)
  /-- An idle block takes a request and starts it. -/
  | accept (h : s.rstIn ≠ some 0) (hb : s.busy = false) (w : Request) (hw : HostLayer.reqWord s = some w)
      (ht : t = Clock.accept (decodeWord w) { timed s with pending := HostLayer.afterAcceptance s.pending })
  /-- The host or the outside does something that the block and the register block do not notice. -/
  | outside (h : s.rstIn ≠ some 0) (p : List HostMove) (r : List HostResult) (g : Bool) (c : Nat) (n : Option Nat)
      (q : Pace) (hc : c ≤ s.cfg.params.msg.length ∨ c = s.readCursor)
      (ht : t = { s with pending := p, results := r, openGuard := g, readCursor := c, rstIn := n, pace := q })
  /-- Another agent writes a word of the register block. -/
  | agent (h : s.rstIn ≠ some 0) (p : List HostMove) (a : Nat) (v : Word) (r : Reg)
      (hp : s.pending = .agentWrite a v :: p) (hr : Ops.locate s.cfg a = some r)
      (ht : t = { timed s with pending := p, block := Ops.writeReg r v s.block,
                               trespass := s.trespass || HostLayer.breaksDuty r v s })

theorem step_inversion {s t : State} (h : step s = .next t) : StepOf s t := by
  by_cases hr : s.rstIn = some 0
  · rw [step_reset hr] at h
    exact .reset hr (by simpa using h.symm)
  rw [step, arbitrate_eq s hr] at h
  unfold HostLayer.unreset at h
  have hpend : (timed s).pending = s.pending := rfl
  have hbusy : (timed s).busy = s.busy := rfl
  rw [hpend, hbusy] at h
  -- an edge of the clock that accepts nothing
  have edge : ∀ p, Host.Outcome.next (φ := Fault) (ρ := Refusal) (Clock.edge { timed s with pending := p }) = .next t →
      StepOf s t := by
    intro p hp
    simp only [Host.Outcome.next.injEq] at hp
    unfold Clock.edge at hp
    by_cases hb : s.busy = true
    · exact .tick hr hb p (by simpa [timed, hb] using hp.symm)
    · refine .outside hr p s.results s.openGuard s.readCursor (timed s).rstIn s.pace (.inr rfl) ?_
      rw [if_neg (by simpa [timed] using hb)] at hp
      exact hp.symm
  -- a request word at the port of an idle block
  have present : s.busy = false → ∀ w, HostLayer.reqWord s = some w →
      (match s.pace with
        | .whole => exec (decodeWord w) { timed s with pending := HostLayer.afterAcceptance s.pending }
        | .clocked => .next (Clock.accept (decodeWord w)
            { timed s with pending := HostLayer.afterAcceptance s.pending })) = .next t → StepOf s t := by
    intro hb w hw ht
    cases hq : s.pace with
    | whole => exact .whole hr hb w hw (by simpa [hq] using ht)
    | clocked => exact .accept hr hb w hw (by simpa [hq] using ht.symm)
  -- a move the block does not notice
  have outside : ∀ p r g c n q, (c ≤ s.cfg.params.msg.length ∨ c = s.readCursor) →
      Host.Outcome.next (φ := Fault) (ρ := Refusal) { s with
        pending := p, results := r, openGuard := g, readCursor := c, rstIn := n, pace := q } = .next t →
      StepOf s t := by
    intro p r g c n q hc ht
    exact .outside hr p r g c n q hc (by simpa using ht.symm)
  cases hp : s.pending with
  | nil =>
    rw [hp] at h
    refine edge [] ?_
    have : { timed s with pending := [] } = timed s := by rw [← hp]; rfl
    rw [this]
    exact h
  | cons m rest =>
    rw [hp] at h
    simp only at h
    by_cases hm : (s.busy && HostLayer.waitsForIdle m) = true
    · rw [if_pos hm] at h
      rw [Bool.and_eq_true] at hm
      refine .tick hr hm.1 s.pending ?_
      simp only [Host.Outcome.next.injEq] at h
      exact h.symm
    · rw [if_neg hm] at h
      have idle : HostLayer.waitsForIdle m = true → s.busy = false := by
        intro hw
        simpa [hw] using hm
      cases m with
      | request w =>
        refine present (idle rfl) w (by simp [HostLayer.reqWord, hp]) ?_
        simp only [hp, HostLayer.afterAcceptance, List.tail_cons]
        exact h
      | clock => exact edge rest h
      | readStatus => exact outside rest _ s.openGuard s.readCursor (timed s).rstIn s.pace (.inr rfl) h
      | openStream =>
        simp only [HostLayer.act, HostLayer.openStream] at h
        split at h
        · exact outside rest _ s.openGuard s.readCursor (timed s).rstIn s.pace (.inr rfl) h
        · exact outside rest _ true 0 (timed s).rstIn s.pace (.inl (Nat.zero_le _)) h
      | closeStream => exact outside rest s.results false s.readCursor (timed s).rstIn s.pace (.inr rfl) h
      | readStream n =>
        simp only [HostLayer.act, HostLayer.readStream] at h
        split at h
        · refine outside rest _ s.openGuard _ (timed s).rstIn s.pace ?_ h
          simp only [HostLayer.readCount, timed]
          omega
        · exact absurd h (by simp)
      | writeStream bs =>
        simp only [HostLayer.act, HostLayer.writeStream] at h
        split at h
        · exact outside _ s.results s.openGuard s.readCursor (timed s).rstIn s.pace (.inr rfl) h
        · exact absurd h (by simp)
      | feed ws len =>
        cases ws with
        | nil => exact outside rest _ s.openGuard s.readCursor (timed s).rstIn s.pace (.inr rfl) h
        | cons w ws =>
          refine present (idle rfl) w (by simp [HostLayer.reqWord, hp]) ?_
          simp only [hp, HostLayer.afterAcceptance]
          exact h
      | agentRead a =>
        simp only [HostLayer.act, HostLayer.agentRead] at h
        split at h
        · exact outside rest _ s.openGuard s.readCursor (timed s).rstIn s.pace (.inr rfl) h
        all_goals exact absurd h (by simp)
      | agentWrite a v =>
        simp only [HostLayer.act, HostLayer.agentWrite] at h
        split at h
        · rename_i r hloc
          refine .agent hr rest a v r hp hloc ?_
          simp only [Host.Outcome.next.injEq] at h
          exact h.symm
        · exact absurd h (by simp)
      | assertReset n => exact outside rest s.results s.openGuard s.readCursor (some n) s.pace (.inr rfl) h
      | setPace q => exact outside rest s.results s.openGuard s.readCursor (timed s).rstIn q (.inr rfl) h

/-- A request word at the port of an idle block with `rst` low is taken by this step (R71). -/
theorem step_takes_request {s : State} {w : Request} (hr : s.rstIn ≠ some 0) (hb : s.busy = false)
    (hw : HostLayer.reqWord s = some w) :
    step s = match s.pace with
      | .whole => exec (decodeWord w) { timed s with pending := HostLayer.afterAcceptance s.pending }
      | .clocked => .next (Clock.accept (decodeWord w)
          { timed s with pending := HostLayer.afterAcceptance s.pending }) := by
  rw [step, arbitrate_eq s hr]
  unfold HostLayer.unreset
  have hpend : (timed s).pending = s.pending := rfl
  have hbusy : (timed s).busy = s.busy := rfl
  rw [hpend, hbusy]
  unfold HostLayer.reqWord at hw
  split at hw <;> first
    | (rename_i hp; rw [hp]; simp_all [HostLayer.act, HostLayer.afterAcceptance]; try rfl)
    | simp at hw

end Sys2Proof.Laws
end

