-- ==== Sys2Proof/Laws/HostLayer.lean ====
section
/-! SUPPORT. The host layer and the other users of the register block, said once: the step with no reset on its way, another
agent's write, and what a write that keeps its duty leaves alone. -/

namespace Sys2Proof.Laws

open Machine

/-- A step with no reset on its way. -/
theorem step_unreset {s : State} (h : s.rstIn = none) :
    step s = match HostLayer.unreset s with
      | .settled o => o
      | .present w s' =>
        match s'.pace with
        | .whole => exec (decodeWord w) s'
        | .clocked => .next (Clock.accept (decodeWord w) s') := by
  simp only [step, HostLayer.arbitrate, h] <;> rfl

/-- Another agent's write of a word of the banks. -/
theorem step_agentWrite {s : State} {a : Nat} {v : Word} {rest : List HostMove} {r : Reg} (h : s.rstIn = none)
    (hp : s.pending = .agentWrite a v :: rest) (hr : Ops.locate s.cfg a = some r) :
    step s = .next { s with pending := rest, block := Ops.writeReg r v s.block,
                            trespass := s.trespass || HostLayer.breaksDuty r v s } := by
  rw [step_unreset h]
  simp [HostLayer.unreset, hp, HostLayer.waitsForIdle, HostLayer.act, HostLayer.agentWrite, hr]
  simp [HostLayer.breaksDuty, HostLayer.configRuns]

/-- A write that keeps its duty leaves every bus pin's level, mode and line, and while CONFIG runs the bus pins' words (R156). -/
theorem duty_kept {r : Reg} {v : Word} {s : State} (h : HostLayer.breaksDuty r v s = false) {l : Line} {p : Pin}
    (hp : s.cfg.pin? l = some p) :
    Ops.level (Ops.writeReg r v s.block) p = Ops.level s.block p ∧
    Ops.mode (Ops.writeReg r v s.block) p = Ops.mode s.block p ∧
    Ops.shown (Ops.writeReg r v s.block) p = Ops.shown s.block p ∧
    (HostLayer.configRuns s = true →
      (Ops.writeReg r v s.block).fsel[fselOf p] = s.block.fsel[fselOf p]) := by
  unfold HostLayer.breaksDuty at h
  rw [List.any_eq_false] at h
  have hq := h p ((pin_mem_iff s.cfg p).mpr ⟨l, hp⟩)
  suffices hk : Ops.level (Ops.writeReg r v s.block) p = Ops.level s.block p ∧
      Ops.mode (Ops.writeReg r v s.block) p = Ops.mode s.block p ∧
      (∀ b, r = .set b ∨ r = .clr b → ¬(p.val / 32 = b.val ∧ v.getLsbD (p.val % 32) = true)) ∧
      (HostLayer.configRuns s = true →
        (Ops.writeReg r v s.block).fsel[fselOf p] = s.block.fsel[fselOf p]) from
    ⟨hk.1, hk.2.1, shown_writeReg_kept r v s.block p hk.2.1 hk.2.2.1, hk.2.2.2⟩
  cases r with
  | fsel b =>
    simp only [HostLayer.inReg, Bool.and_eq_true, beq_iff_eq, Bool.or_eq_true, bne_iff_ne, not_and, not_or, ne_eq,
      Decidable.not_not] at hq
    refine ⟨by simp, ?_, by simp, ?_⟩
    · by_cases hb : p.val / 10 = b.val
      · exact (hq hb).2
      · rw [mode_writeFsel, if_neg hb]
    · intro hc
      have hb : p.val / 10 ≠ b.val := fun hb => (hq hb).1 hc
      simp only [fsel_writeFsel, fselOf, Fin.getElem_fin]
      rw [Vector.getElem_set_ne]
      omega
  | set b =>
    simp only [HostLayer.inReg, Bool.and_eq_true, beq_iff_eq, not_and] at hq
    refine ⟨?_, by simp, ?_, by simp⟩
    · rw [level_writeSet, if_neg (fun h => hq h.1 h.2)]
    · rintro _ (hb | hb) h <;> cases hb
      exact hq h.1 h.2
  | clr b =>
    simp only [HostLayer.inReg, Bool.and_eq_true, beq_iff_eq, not_and] at hq
    refine ⟨?_, by simp, ?_, by simp⟩
    · rw [level_writeClr, if_neg (fun h => hq h.1 h.2)]
    · rintro _ (hb | hb) h <;> cases hb
      exact hq h.1 h.2

end Sys2Proof.Laws
end

