-- ==== Sys2Proof/Laws/PerInstr.lean ====
section
/-! SUPPORT. The per-instruction family RequestWord: the word of a request carries its operation code in bits 11:8 and its
operand in bits 7:0 (R72), and nothing is lost of either. -/

namespace Sys2Proof.Laws.RequestWord

/-- What is said of each request: the two fields of its word. -/
def Statement (i : Instr) : Prop := requestOp (encode i) = opcode i ∧ requestArg (encode i) = i.arg

theorem config (arg : Byte) : Statement (.config arg) := ⟨requestOp_encode _, requestArg_encode _⟩

theorem init (arg : Byte) : Statement (.init arg) := ⟨requestOp_encode _, requestArg_encode _⟩

theorem wrcmd (arg : Byte) : Statement (.wrcmd arg) := ⟨requestOp_encode _, requestArg_encode _⟩

theorem wrdata (arg : Byte) : Statement (.wrdata arg) := ⟨requestOp_encode _, requestArg_encode _⟩

theorem clear (arg : Byte) : Statement (.clear arg) := ⟨requestOp_encode _, requestArg_encode _⟩

theorem home (arg : Byte) : Statement (.home arg) := ⟨requestOp_encode _, requestArg_encode _⟩

theorem line2 (arg : Byte) : Statement (.line2 arg) := ⟨requestOp_encode _, requestArg_encode _⟩

theorem detach (arg : Byte) : Statement (.detach arg) := ⟨requestOp_encode _, requestArg_encode _⟩

theorem reserved0 (arg : Byte) : Statement (.reserved0 arg) := ⟨requestOp_encode _, requestArg_encode _⟩

theorem reserved9 (arg : Byte) : Statement (.reserved9 arg) := ⟨requestOp_encode _, requestArg_encode _⟩

theorem reservedA (arg : Byte) : Statement (.reservedA arg) := ⟨requestOp_encode _, requestArg_encode _⟩

theorem reservedB (arg : Byte) : Statement (.reservedB arg) := ⟨requestOp_encode _, requestArg_encode _⟩

theorem reservedC (arg : Byte) : Statement (.reservedC arg) := ⟨requestOp_encode _, requestArg_encode _⟩

theorem reservedD (arg : Byte) : Statement (.reservedD arg) := ⟨requestOp_encode _, requestArg_encode _⟩

theorem reservedE (arg : Byte) : Statement (.reservedE arg) := ⟨requestOp_encode _, requestArg_encode _⟩

theorem reservedF (arg : Byte) : Statement (.reservedF arg) := ⟨requestOp_encode _, requestArg_encode _⟩

end Sys2Proof.Laws.RequestWord
end

