-- ==== Sys2Proof/Tests/Slice0.lean ====
section
/-! SUPPORT. The model's own tests. Expected results come from the spec: its rules' examples and 95_test_vectors.md (the comment
of each test names the vector). The last section shows, for each statement of Obligations.lean that has hypotheses, a
concrete state that meets them. -/

namespace Sys2Proof.Tests

open Machine

/-! ## Helpers -/

/-- Reference configuration A. -/
def cfgA : Config := ⟨Params.referenceA, by decide⟩

/-- Reference configuration B. -/
def cfgB : Config := ⟨Params.referenceB, by decide⟩

/-- The state after reset on a configuration, the function-select words given, the levels unknown. -/
def start (c : Config) (fsel : Vector Word 7) : State :=
  State.resetOn c { fsel := fsel, level := Vector.replicate 64 .unknown, shown := Vector.replicate 64 false }

/-- Configuration A, function-select words all zero. -/
def idle : State := start cfgA (Vector.replicate 7 0)

/-- Configuration A as after ATTACH: pins configured, phase INITIALIZED. -/
def attached : State := { start cfgA #v[0x00048000, 0x08000200, 0x00040008, 0, 0, 0, 0] with phase := .initialized }

/-- The state a request leaves, if the request has a meaning there. -/
def result (i : Instr) (s : State) : Option State :=
  match exec i s with
  | .next t => some t
  | _ => none

/-- The state a step leaves. -/
def stepped (s : State) : Option State :=
  match step s with
  | .next t => some t
  | _ => none

/-- The refusal of a step. -/
def refusal (s : State) : Option Refusal :=
  match step s with
  | .refused r => some r
  | _ => none

/-- Reference configuration A as raw numbers. -/
def rawA : RawParams where
  d := [5, 6, 13, 19]
  rs := 26
  en := 21
  rw := none
  rwWriteLevel := false
  fselBase := 0x00
  setBase := 0x1C
  clrBase := 0x28
  funcset := [0x8]
  dispctrl := [0x0, 0xC]
  entry := [0x0, 0x6]
  line1 := [0x8, 0x0]
  minTime := Params.referenceA.minTime
  cycles := Params.referenceA.cycles
  clkPeriod := 1
  msg := Params.referenceA.msg

/-- The name under which a raw configuration is refused. -/
def refused (r : RawParams) : Option ConfigError :=
  match r.check with
  | .error e => some e
  | .ok _ => none

/-! ## WellFormed: every check refuses what it is there for (R8, R180) -/

theorem test_wf_referenceA : rawA.check.toOption.map (·.params) = some Params.referenceA := by decide

theorem test_wf_boundary : refused { rawA with en := 63, rw := some 0, line1 := [0xF] } = none := by decide

theorem test_wf_five_data_lines : refused { rawA with d := [5, 6, 13, 19, 20] } = some .notFourDataLines := by decide

theorem test_wf_pin_64 : refused { rawA with en := 64 } = some .pinOutOfRange := by decide

theorem test_wf_rw_shares_a_pin : refused { rawA with rw := some 26 } = some .pinShared := by decide

theorem test_wf_base_misaligned : refused { rawA with clrBase := 0x2A } = some .baseMisaligned := by decide

theorem test_wf_banks_overlap : refused { rawA with setBase := 0x18 } = some .banksOverlap := by decide

theorem test_wf_equal_delays :
    refused { rawA with minTime := { rawA.minTime with clear := 4 } } = some .delaysOutOfOrder := by decide

theorem test_wf_empty_list : refused { rawA with entry := [] } = some .commandListLength := by decide

theorem test_wf_long_list : refused { rawA with entry := [0, 1, 2] } = some .commandListLength := by decide

theorem test_wf_code_16 : refused { rawA with funcset := [16] } = some .codeTooWide := by decide

theorem test_wf_cycles_short :
    refused { rawA with cycles := { rawA.cycles with clear := 4 } } = some .cyclesTooShort := by decide

/-- The assembler writes `0x00` where there is no operand, and no reserved code (R73, R84). -/
theorem test_wf_assembled :
    AsmLine.wf (.op (.clear 0)) = true ∧ AsmLine.wf (.op (.clear 1)) = false ∧
    AsmLine.wf (.op (.reserved0 0)) = false ∧ AsmLine.wf (.word 0x000) = true := by decide

/-! ## Decode: one word per constructor, bit by bit from R72 -/

theorem test_decode_config : decodeWord 0b000110100101 = .config 0xA5 := by decide
theorem test_decode_init : decodeWord 0b001000000000 = .init 0x00 := by decide
theorem test_decode_wrcmd : decodeWord 0b001111000000 = .wrcmd 0xC0 := by decide
theorem test_decode_wrdata : decodeWord 0b010010101011 = .wrdata 0xAB := by decide
theorem test_decode_clear : decodeWord 0b010111111111 = .clear 0xFF := by decide
theorem test_decode_home : decodeWord 0b011010100101 = .home 0xA5 := by decide
theorem test_decode_line2 : decodeWord 0b011100000001 = .line2 0x01 := by decide
theorem test_decode_detach : decodeWord 0b100000000000 = .detach 0x00 := by decide
theorem test_decode_reserved0 : decodeWord 0b000011111111 = .reserved0 0xFF := by decide
theorem test_decode_reserved9 : decodeWord 0b100100000000 = .reserved9 0x00 := by decide
theorem test_decode_reservedA : decodeWord 0b101000010010 = .reservedA 0x12 := by decide
theorem test_decode_reservedB : decodeWord 0b101110000000 = .reservedB 0x80 := by decide
theorem test_decode_reservedC : decodeWord 0b110000000011 = .reservedC 0x03 := by decide
theorem test_decode_reservedD : decodeWord 0b110101010101 = .reservedD 0x55 := by decide
theorem test_decode_reservedE : decodeWord 0b111010101010 = .reservedE 0xAA := by decide
theorem test_decode_reservedF : decodeWord 0b111111111111 = .reservedF 0xFF := by decide

/-- The words of the spec's examples: S3, V11, V52. -/
theorem test_encode : encode (.wrdata 0xAB) = 0x4AB ∧ encode (.wrcmd 0xC0) = 0x3C0 ∧ encode (.line2 0) = 0x700 := by
  decide

/-- The table's word: 12 bits are read, more are refused (R75). -/
theorem test_table_word : decodeTableWord 16 0x800 = some (.detach 0) ∧ decodeTableWord 16 0x1000 = none := by decide

/-- The expansion of CMD8 (R84, program P3). -/
theorem test_cmd8 : AsmLine.words (.cmd8 0x80) = [0x308, 0x300] := by decide

/-! ## The register block and the pin events -/

/-- V1: the function-select word before and after CFG. -/
theorem test_cfg_words :
    Ops.asOutput 0 0x00000000 = 0x00000001 ∧ Ops.asOutput 9 0xFFFFFFFF = 0xCFFFFFFF ∧
    Ops.asOutput 19 0x24924924 = 0x0C924924 ∧ Ops.asOutput 31 0x00000008 = 0x00000008 ∧
    Ops.asOutput 53 0x00000E00 = 0x00000200 ∧ Ops.asOutput 63 0xDEADBEEF = 0xDEADB2EF := by decide

/-- V3 and the table of 95_test_vectors.md section 0: addresses and masks at the bank boundaries. -/
theorem test_addresses :
    Ops.setAddrOf cfgA 31 = 0x1C ∧ Ops.pinMask 31 = 0x80000000 ∧ Ops.setAddrOf cfgA 32 = 0x20 ∧
    Ops.pinMask 32 = 0x00000001 ∧ Ops.clrAddrOf cfgA 39 = 0x2C ∧ Ops.pinMask 39 = 0x00000080 ∧
    Ops.fselAddrOf cfgA 63 = 0x18 ∧ Ops.fselAddrOf cfgA 21 = 0x08 ∧ Ops.fieldShift 39 = 27 := by decide

/-- R46, R47: set, then clear, pin 37; the other pins of the word keep their levels. -/
theorem test_set_and_clear :
    let k := Ops.memWrite cfgA 0x2C 0x00000020 (Ops.memWrite cfgA 0x20 0x00000060 idle.block)
    Ops.level k 37 = .low ∧ Ops.level k 38 = .high ∧ Ops.level k 5 = .unknown := by decide +kernel

/-- U10, R49: a level written while the pin (D0, pin 5) is no output is kept in the latch, and after CONFIG the line is any value
still. -/
theorem test_line_before_a_write :
    (result (.config 0) { idle with block := Ops.memWrite cfgA 0x1C 0x00000020 idle.block }).map (fun t =>
      (Observe.lvl t .d0, Observe.out t .d0, Observe.seen (fun _ => false) t .d0, Observe.seen (fun _ => true) t .d0)) =
      some (.high, true, false, true) := by decide +kernel

/-- R23: once an output has been written, the display sees the level, whatever is drawn; RW, which A does not have, is tied to
the write level (R126). -/
theorem test_lines_after_wrcmd :
    (result (.wrcmd 0x5) attached).map (fun t =>
      ([Line.d3, .d2, .d1, .d0, .rs, .en, .rw].map (Observe.seen (fun _ => false) t),
       [Line.d3, .d2, .d1, .d0, .rs, .en, .rw].map (Observe.seen (fun _ => true) t))) =
      some ([false, true, false, true, false, false, false], [false, true, false, true, false, false, false]) := by
  decide +kernel

/-- R126: RW tied to a write level of 1; and present on B, driven by CONFIG to the write level 0. -/
theorem test_rw_write_level :
    Observe.seen (fun _ => false) (start ⟨{ Params.referenceA with rwWriteLevel := true }, by decide⟩
      (Vector.replicate 7 0)) .rw = true ∧
    (result (.config 0) (start cfgB (Vector.replicate 7 0))).map (fun t =>
      (Observe.seen (fun _ => false) t .rw, Observe.seen (fun _ => true) t .rw)) = some (false, false) := by
  decide +kernel

/-- V6: the bus updates of 0x0, 0xA and 0xF. -/
theorem test_busUpd :
    Operands.events 0 (Operands.busUpd 0x0) = [.lo .d0, .lo .d1, .lo .d2, .lo .d3] ∧
    Operands.events 0 (Operands.busUpd 0xA) = [.lo .d0, .hi .d1, .lo .d2, .hi .d3] ∧
    Operands.events 0 (Operands.busUpd 0xF) = [.hi .d0, .hi .d1, .hi .d2, .hi .d3] := by decide

/-! ## The operations -/

/-- V31: CONFIG on A over words of ones. -/
theorem test_config_words :
    (result (.config 0) (start cfgA (Vector.replicate 7 0xFFFFFFFF))).map (·.block.fsel) =
      some #v[0xFFE4FFFF, 0xCFFFF3FF, 0xFFE7FFCF, 0xFFFFFFFF, 0xFFFFFFFF, 0xFFFFFFFF, 0xFFFFFFFF] := by
  decide +kernel

/-- V32: the accesses of CONFIG on B. -/
theorem test_config_accesses :
    Observe.accesses cfgB
        (start cfgB #v[0x12345678, 0, 0, 0x3FFFFFFF, 0, 0, 0]).block
        (Operands.events 0 (Protocol.configList Params.referenceB)) =
      [.read 0x0C 0x3FFFFFFF, .write 0x0C 0x3FFFFFF9, .read 0x0C 0x3FFFFFF9, .write 0x0C 0x3FFFFFC9,
       .read 0x0C 0x3FFFFFC9, .write 0x0C 0x3FFFFE49, .read 0x0C 0x3FFFFE49, .write 0x0C 0x3FFFF249,
       .read 0x00 0x12345678, .write 0x00 0x0A345678, .read 0x04 0x00000000, .write 0x04 0x00000001,
       .read 0x0C 0x3FFFF249, .write 0x0C 0x0FFFF249, .write 0x2C 0x00000080] := by decide +kernel

/-- V40: the frames of INIT with the reference lists. -/
theorem test_init_frames :
    Observe.frames (Operands.events 0 (Protocol.initList Params.referenceA)) =
      [.frame false 0x3, .wait .initLong, .frame false 0x3, .wait .initLong, .frame false 0x3, .wait .initShort,
       .frame false 0x2, .wait .cmd, .frame false 0x2, .wait .cmd, .frame false 0x8, .wait .cmd,
       .frame false 0x0, .frame false 0xC, .wait .cmd, .frame false 0x0, .frame false 0x1, .wait .clear,
       .frame false 0x0, .frame false 0x6, .wait .cmd, .frame false 0x8, .frame false 0x0, .wait .cmd] := by
  decide +kernel

/-- V42, V43: INIT accepted in DETACHED emits its 164 events, sets VIOL and stays DETACHED. -/
theorem test_init_detached :
    (result (.init 0) idle).map (fun t => (t.upc, t.viol, t.phase, t.trace.length)) =
      some (164, true, .detached, 164) := by decide +kernel

/-- V11: WRCMD 0xC0 on A. -/
theorem test_wrcmd_accesses :
    Observe.accesses cfgA idle.block (Operands.events 0 (Protocol.wrcmdList 0xC0)) =
      [.write 0x28 0x04000000, .write 0x28 0x00000020, .write 0x28 0x00000040, .write 0x28 0x00002000,
       .write 0x28 0x00080000, .write 0x28 0x00200000, .wait .pre, .write 0x1C 0x00200000, .wait .pw,
       .write 0x28 0x00200000, .wait .post] := by decide +kernel

/-- V12: WRCMD 0x3C sends 0xC; in CONFIGURED it sets VIOL. -/
theorem test_wrcmd_nibble :
    (result (.wrcmd 0x3C) { idle with phase := .configured }).map (fun t => (Observe.frames t.trace, t.viol, t.nib)) =
      some ([.frame false 0xC], true, 0xC) := by decide +kernel

/-- S3: the source's own example, WRDATA 0xAB. -/
theorem test_wrdata_events :
    (result (.wrdata 0xAB) attached).map (fun t => (t.trace, t.viol)) = some
      ([.hi .rs, .lo .d0, .hi .d1, .lo .d2, .hi .d3,
        .lo .en, .wait .pre, .hi .en, .wait .pw, .lo .en, .wait .post,
        .hi .d0, .hi .d1, .lo .d2, .hi .d3,
        .lo .en, .wait .pre, .hi .en, .wait .pw, .lo .en, .wait .post], false) := by decide +kernel

/-- V22: WRDATA 0x48 on B, whose data lines lie in two banks. -/
theorem test_wrdata_accesses :
    Observe.accesses cfgB idle.block (Operands.events 0 (Protocol.wrdataList 0x48)) =
      [.write 0x1C 0x00000200,
       .write 0x28 0x40000000, .write 0x28 0x80000000, .write 0x20 0x00000001, .write 0x2C 0x00000002,
       .write 0x28 0x00000400, .wait .pre, .write 0x1C 0x00000400, .wait .pw, .write 0x28 0x00000400, .wait .post,
       .write 0x28 0x40000000, .write 0x28 0x80000000, .write 0x2C 0x00000001, .write 0x20 0x00000002,
       .write 0x28 0x00000400, .wait .pre, .write 0x1C 0x00000400, .wait .pw, .write 0x28 0x00000400,
       .wait .post] := by decide +kernel

/-- V50: the frames and the length of CLEAR. -/
theorem test_clear :
    (result (.clear 0xFF) attached).map (fun t => (Observe.frames t.trace, t.upc, t.viol)) =
      some ([.frame false 0x0, .frame false 0x1, .wait .clear], 23, false) := by decide +kernel

/-- V51: HOME. -/
theorem test_home :
    (result (.home 0xA5) attached).map (fun t => (Observe.frames t.trace, Observe.bus t)) =
      some ([.frame false 0x0, .frame false 0x2, .wait .cmd], some 0x2) := by decide +kernel

/-- V52: LINE2, with the source's literal. -/
theorem test_line2 :
    (result (.line2 0x01) attached).map (fun t => (Observe.frames t.trace, Observe.bus t)) =
      some ([.frame false 0x0, .frame false 0xC, .wait .cmd], some 0xC) := by decide +kernel

/-- V33: DETACH. -/
theorem test_detach :
    (result (.detach 0xFF) attached).map (fun t => (t.phase, t.trace, t.viol, t.op)) =
      some (.detached, [], false, 0x8) := by decide +kernel

/-- The row "DETACHED, DETACH" of section 2.9. -/
theorem test_detach_detached : (result (.detach 0) idle).map (·.viol) = some true := by decide +kernel

/-- Program P5: a reserved code, then STATUS. -/
theorem test_reserved :
    [Instr.reserved0 0, .reserved9 0, .reservedA 0, .reservedB 0, .reservedC 0, .reservedD 0, .reservedE 0,
      .reservedF 0].map (fun i => (result i idle).map (fun t => (Flags.status t, t.viol, t.trace))) =
      List.replicate 8 (some (0x08, false, [])) := by decide +kernel

/-- The STATUS values of section 2.9. -/
theorem test_status :
    Flags.status idle = 0x00 ∧ Flags.status { idle with phase := .configured } = 0x02 ∧
    Flags.status attached = 0x04 ∧ Flags.status { attached with ill := true, busy := true } = 0x0D := by decide

/-! ## The clocked sequencer -/

/-- CONFIG, clocked: after acceptance and one step its first word has been read and nothing written (R51). -/
def reading : State := Clock.tick (Clock.accept (.config 0) idle)

theorem test_cfg_two_accesses :
    (reading.rdata, reading.upc, reading.trace) = (some 0, 0, []) ∧
    (Clock.tick reading).block.fsel[0] = 0x00008000 ∧ (Clock.tick reading).trace = [.cfg .d0] := by decide +kernel

/-- WRCMD, clocked: the sixth event is the first LO(EN), after which DLY holds N(PRE) (R104, R180). -/
def waiting : State := Clock.ticks 6 (Clock.accept (.wrcmd 0x3) attached)

theorem test_wait_loaded :
    waiting.dly = 1 ∧ waiting.upc = 6 ∧ Clock.currentEvent waiting = some (.wait .pre) ∧ waiting.busy = true := by
  decide +kernel

/-- R14, R71: a step of a busy block completes the event at UPC, also while the host holds a request at the port. -/
theorem test_step_of_a_busy_block :
    (stepped waiting).map (fun t => (t.upc, t.trace.length, t.busy)) = some (7, 7, true) ∧
    (stepped { waiting with pending := [.request 0x800] }).map (fun t => (t.upc, t.trace.length, t.pending)) =
      some (7, 7, [.request 0x800]) := by decide +kernel

/-- R71, R104: the last step of a wait that ends the list ends the operation. -/
theorem test_step_ends_the_operation :
    (stepped { attached with busy := true, op := 0x3, arg := 0x03, upc := 10, dly := 1, pending := [.clock] }).map
      (fun t => (t.upc, t.trace, t.busy, t.pending)) = some (11, [.wait .post], false, []) := by decide +kernel

/-- V61: a reset after the eighth event of INIT leaves EN asserted and the block as after reset. -/
theorem test_reset_in_init :
    (stepped { Clock.ticks 8 (Clock.accept (.init 0) attached) with rstIn := some 0 }).map
      (fun t => (Observe.lvl t .en, Flags.status t, t.trace, t.history.length)) =
      some (.high, 0x00, [], 8) := by decide +kernel

/-! ## The host layer -/

/-- S6, third row: a second OPEN answers Busy and leaves the cursor. -/
theorem test_second_open :
    (stepped { attached with openGuard := true, readCursor := 3, pending := [.openStream] }).map
      (fun t => (t.openGuard, t.readCursor, t.results)) = some (true, 3, [.openBusy]) := by decide +kernel

/-- S7, second READ: at the end of the message nothing is served. -/
theorem test_read_at_end :
    (stepped { attached with openGuard := true, readCursor := 4, pending := [.readStream 9] }).map
      (fun t => (t.readCursor, t.results)) = some (4, [.bytes []]) := by decide +kernel

/-- The table of R154. -/
theorem test_effective_length :
    [0, 1, 2, 16, 17, 18, 31, 32, 33, 40].map HostLayer.effectiveLength = [0, 0, 1, 15, 16, 17, 30, 31, 31, 31] := by
  decide

/-- Program P2: the request words of WRITE "HELLO, WORLD! 123456\n". -/
theorem test_write_words :
    (HostLayer.writeOps [0x48, 0x45, 0x4C, 0x4C, 0x4F, 0x2C, 0x20, 0x57, 0x4F, 0x52, 0x4C, 0x44, 0x21, 0x20, 0x31, 0x32,
      0x33, 0x34, 0x35, 0x36, 0x0A]).map encode =
      [0x448, 0x445, 0x44C, 0x44C, 0x44F, 0x42C, 0x420, 0x457, 0x44F, 0x452, 0x44C, 0x444, 0x421, 0x420, 0x431,
       0x432, 0x700, 0x433, 0x434, 0x435, 0x436] := by decide +kernel

/-- R208: another agent drives RS (pin 26): the level moves, and its breach is recorded. -/
theorem test_agent_on_a_bus_pin :
    (stepped { attached with pending := [.agentWrite 0x1C 0x04000000] }).map
      (fun t => (Observe.lvl t .rs, t.trespass)) = some (.high, true) := by decide +kernel

/-- R208: the same word, a pin that is no bus pin. -/
theorem test_agent_elsewhere :
    (stepped { attached with pending := [.agentWrite 0x1C 0x00000001] }).map
      (fun t => (Ops.level t.block 0, t.trespass)) = some (.high, false) := by decide +kernel

/-! ## Witnesses: states that meet the hypotheses of the statements -/

theorem witness_OperandFieldIgnored : idle.busy = false ∧ Claims.low 0xC3 = Claims.low 0x03 := by decide

theorem witness_BankedAddressesDistinct :
    (Ops.setAddrOf cfgA 63, Ops.pinMask 63) = (Ops.setAddrOf cfgA 63, Ops.pinMask 63) ∧
    (Ops.clrAddrOf cfgA 0, Ops.pinMask 0) = (Ops.clrAddrOf cfgA 0, Ops.pinMask 0) := by decide

/-- The pin events: a line at each end of a function-select word and of a set word, and RW. -/
theorem witness_CfgHiLo :
    cfgB.pin? .d1 = some 31 ∧ cfgB.pin? .d2 = some 32 ∧ cfgB.pin? .rs = some 9 ∧ cfgB.pin? .en = some 10 ∧
    cfgB.pin? .rw = some 39 := by decide

/-- Operations at an idle block, in and out of phase, with and without RW: WrcmdSendsOneNibble, WrdataSendsTwoNibbles,
ConfigMakesBusPinsOutputs, InitRunsTheHandshake, DetachEmitsNothing, ClearSendsZeroOne, HomeSendsZeroTwo,
Line2SendsZeroTwelve, AcceptanceFlags, PhaseAfterEachRequest, EventListIsFixed, AcceptanceAtAnEdge. -/
theorem witness_idle_block :
    idle.busy = false ∧ idle.phase = .detached ∧ attached.busy = false ∧ attached.phase = .initialized ∧
    (start cfgB (Vector.replicate 7 0)).cfg.params.bus.rw ≠ none ∧ idle.cfg.params.bus.rw = none := by decide

theorem witness_ReservedCodesOnlySetIll :
    idle.busy = false ∧ Instr.reserved0 0x00 ∈ [Instr.reserved0 0x00, .reserved9 0x00, .reservedA 0x00, .reservedB 0x00,
      .reservedC 0x00, .reservedD 0x00, .reservedE 0x00, .reservedF 0x00] := by decide

theorem witness_NoRequestCanFail : reading.busy = true := by decide +kernel

/-- RequestFrame and ConfigFrame: a request of each of the frame's clauses reaches a next state. -/
theorem witness_RequestFrame :
    (∃ t, exec (.config 0) idle = .next t) ∧ opcode (.config 0) = 0x1 ∧
    (∃ t, exec (.wrcmd 0) idle = .next t) ∧ opcode (.wrcmd 0) ≠ 0x1 ∧
    (∃ t, exec (.detach 0) idle = .next t) ∧ opcode (.detach 0) = 0x8 ∧
    (∃ t, exec (.reservedF 0) idle = .next t) ∧ Instr.isReserved (.reservedF 0) = true :=
  ⟨⟨_, rfl⟩, rfl, ⟨_, rfl⟩, by decide, ⟨_, rfl⟩, rfl, ⟨_, rfl⟩, rfl⟩

/-- A pin no line is assigned to, in a word with bus pins; and a word without. -/
theorem witness_ConfigFrame :
    (∀ l, idle.cfg.pin? l ≠ some 20) ∧ ∀ l p, idle.cfg.pin? l = some p → p.val / 10 ≠ 6 := by
  constructor
  · intro l
    cases l <;> decide
  · intro l p h
    cases l <;> cases h <;> decide

theorem witness_EveryAssertionOfEnIsAPulse :
    Claims.events Params.referenceA (.wrcmd 0) =
      [.lo .rs, .lo .d0, .lo .d1, .lo .d2, .lo .d3, .lo .en, .wait .pre] ++ .hi .en ::
        [.wait .pw, .lo .en, .wait .post] := by decide

theorem witness_BusChangesOnlyWhileEnIsLow :
    Claims.events Params.referenceA (.wrcmd 0xF) =
      [.lo .rs, .hi .d0, .hi .d1, .hi .d2] ++ .hi .d3 :: Claims.pulse ∧
    Claims.events Params.referenceA (.wrcmd 0xF) =
      [] ++ .lo .rs :: [.hi .d0, .hi .d1, .hi .d2, .hi .d3, .lo .en, .wait .pre, .hi .en, .wait .pw, .lo .en,
        .wait .post] := by decide

/-- WriteLeastDuration, on both sides of each of its bounds. -/
theorem witness_WriteLeastDuration :
    (0 : Nat) = (if (List.replicate 1 (0x41 : Byte)).length ≤ 1 then 0 else
      min 32 (List.replicate 1 (0x41 : Byte)).length - 1) ∧
    (16 : Nat) = (if (List.replicate 17 (0x41 : Byte)).length ≤ 1 then 0 else
      min 32 (List.replicate 17 (0x41 : Byte)).length - 1) ∧
    (17 : Nat) = (if (List.replicate 18 (0x41 : Byte)).length ≤ 1 then 0 else
      min 32 (List.replicate 18 (0x41 : Byte)).length - 1) ∧
    (31 : Nat) = (if (List.replicate 40 (0x41 : Byte)).length ≤ 1 then 0 else
      min 32 (List.replicate 40 (0x41 : Byte)).length - 1) := by decide

theorem witness_ClockedRunIsTheOperation : idle.busy = false ∧ idle.rdata = none := by decide

theorem witness_TickEmitsTheEventAtUpc : waiting.busy = true ∧ reading.busy = true := by decide +kernel

/-- WaitCountsDown: a wait with two cycles left, with one, and with none. -/
theorem witness_WaitCountsDown :
    waiting.busy = true ∧ Clock.currentEvent waiting = some (.wait .pre) ∧ waiting.dly ≤ 1 ∧
    Clock.currentEvent { waiting with dly := 2 } = some (.wait .pre) ∧
    Clock.currentEvent { waiting with dly := 0 } = some (.wait .pre) := by decide +kernel

/-- WriteDuringCfgIsLost: CONFIG has read the word of pin 5. -/
theorem witness_WriteDuringCfgIsLost :
    reading.busy = true ∧ Clock.currentEvent reading = some (.cfg .d0) ∧ reading.cfg.pin? .d0 = some 5 ∧
    reading.rdata = some 0 ∧ reading.rstIn = none ∧
    ({ reading with pending := [.agentWrite 0x00 0xFFFFFFFF] } : State).pending =
      .agentWrite (Ops.fselAddr reading.cfg ((5 : Pin).val / 10)) 0xFFFFFFFF :: [] := by decide +kernel

/-- StepRunsTheDecodedRequest: a request and a WRITE in progress at the port, at both grains. -/
theorem witness_StepRunsTheDecodedRequest :
    idle.rstIn ≠ some 0 ∧ idle.busy = false ∧ HostLayer.reqWord { idle with pending := [.request 0x100] } = some 0x100 ∧
    HostLayer.reqWord { idle with pending := [.feed [0x441] 2] } = some 0x441 ∧ idle.pace = .whole ∧
    ({ idle with pace := .clocked } : State).pace = .clocked := by decide

theorem witness_PlacedWordRunsNext : decodeTableWord 16 0x7FF = some (.line2 0xFF) := by decide

/-- BusyBlockHoldsTheRequest: each of its clauses. -/
theorem witness_BusyBlockHoldsTheRequest :
    reading.busy = true ∧ reading.rstIn ≠ some 0 ∧ reading.pending = [] ∧
    HostLayer.reqWord { reading with pending := [.request 0x500] } = some 0x500 ∧
    ({ reading with pending := [.openStream] } : State).pending = .openStream :: [] ∧
    ({ reading with pending := [.closeStream] } : State).pending = .closeStream :: [] ∧
    ({ reading with pending := [.readStream 1] } : State).pending = .readStream 1 :: [] ∧
    ({ reading with pending := [.writeStream [0x41]] } : State).pending = .writeStream [0x41] :: [] ∧
    ({ reading with pending := [.feed [] 2] } : State).pending = .feed [] 2 :: [] ∧
    ({ reading with pending := [.clock] } : State).pending = .clock :: [] := by decide +kernel

theorem witness_ResetInARun : ({ reading with rstIn := some 0 } : State).rstIn = some 0 := rfl

theorem witness_StatusWord :
    idle.rstIn = none ∧ ({ idle with pending := [.readStatus] } : State).pending = .readStatus :: [] := by decide

/-- BusInvariantKept, OutsidePinsNeverTouched: the attached block meets the invariant with every line an output. -/
theorem witness_BusInvariantKept :
    Claims.busInvariant attached ∧ attached.phase ≠ .detached ∧ attached.trespass = false ∧
    (∃ t, step attached = .next t) ∧ (∀ a v rest, attached.pending ≠ .agentWrite a v :: rest) ∧
    ∀ l, attached.cfg.pin? l ≠ some 20 := by
  refine ⟨fun _ => ⟨fun _ l p h => ?_, fun h => absurd h (by decide), fun w h => absurd h (by simp [attached, start,
    State.resetOn])⟩, by decide, rfl, ⟨_, rfl⟩, fun _ _ _ h => by simp [attached, start, State.resetOn] at h,
    fun l => ?_⟩
  · cases l <;> cases h <;> decide +kernel
  · cases l <;> decide

/-- CountersStaySound: a state with a wait in progress meets the invariant. -/
theorem witness_CountersStaySound :
    Claims.countersSound waiting ∧ waiting.dly ≠ 0 ∧ ∃ t, step waiting = .next t :=
  ⟨⟨fun _ => ⟨by decide +kernel, .pre, by decide +kernel⟩, by decide +kernel, by decide +kernel⟩, by decide +kernel,
    ⟨_, rfl⟩⟩

/-- StickyFlagsStay, TraceOnlyGrows, ParametersNeverChange: a step of a state with both flags set. -/
theorem witness_StickyFlagsStay :
    (∃ t, step { idle with ill := true, viol := true } = .next t) ∧ idle.rstIn ≠ some 0 := ⟨⟨_, rfl⟩, by decide⟩

/-- DutifulHostKeepsTheContract: an attached block, a request in phase. -/
theorem witness_DutifulHostKeepsTheContract :
    Claims.contractKept { attached with pending := [.request 0x441] } ∧
    ∀ m rest, ({ attached with pending := [.request 0x441] } : State).pending = m :: rest →
      Claims.duty { attached with pending := [.request 0x441] } m := by
  refine ⟨⟨rfl, rfl, rfl⟩, fun m rest h => ?_⟩
  cases h
  refine ⟨fun h => h rfl, rfl, fun h => absurd h (by decide)⟩

/-- Each of the refusals OnlyOutsideMovesAreRefused speaks of is reached. -/
theorem witness_OnlyOutsideMovesAreRefused :
    refusal { idle with pending := [.readStream 1] } = some .streamNotOpen ∧
    refusal { idle with pending := [.writeStream []] } = some .streamNotOpen ∧
    refusal { idle with pending := [.agentRead 0x20] } = some (.readOfWriteOnlyWord 0x20) ∧
    refusal { idle with pending := [.agentRead 0x24] } = some (.offsetOutsideTheBanks 0x24) ∧
    refusal { idle with pending := [.agentWrite 0x02 0] } = some (.offsetOutsideTheBanks 0x02) := by decide +kernel

/-- OpenRejectsSecond (both clauses), CloseReleasesTheGuard, UnopenedStreamRefused. -/
theorem witness_stream_moves :
    idle.busy = false ∧ idle.rstIn = none ∧ idle.openGuard = false ∧
    ({ idle with openGuard := true } : State).openGuard = true ∧
    ({ idle with pending := [.openStream] } : State).pending = .openStream :: [] ∧
    ({ idle with pending := [.closeStream] } : State).pending = .closeStream :: [] ∧
    ({ idle with pending := [.writeStream [0x41]] } : State).pending = .writeStream [0x41] :: [] := by decide

/-- ReadServesTheMessage: in the message, and at its end. -/
theorem witness_ReadServesTheMessage :
    ({ idle with openGuard := true, readCursor := 1, pending := [.readStream 2] } : State).pending =
      .readStream 2 :: [] ∧
    (1 : Nat) ≤ idle.cfg.params.msg.length ∧ (4 : Nat) = idle.cfg.params.msg.length := by decide

/-- WriteOperations: a length on each side of its bounds. -/
theorem witness_WriteOperations :
    (List.replicate 1 (0x41 : Byte)).length ≤ 1 ∧
    (2 ≤ (List.replicate 17 (0x41 : Byte)).length ∧ min 32 (List.replicate 17 (0x41 : Byte)).length - 1 ≤ 16) ∧
    (2 ≤ (List.replicate 18 (0x41 : Byte)).length ∧ 17 ≤ min 32 (List.replicate 18 (0x41 : Byte)).length - 1) := by
  decide

theorem witness_WriteRunsToItsEnd :
    attached.busy = false ∧ attached.rstIn = none ∧ attached.pace = .whole ∧
    ({ attached with openGuard := true, pending := [.writeStream [0x41, 0x42]] } : State).openGuard = true ∧
    ({ attached with openGuard := true, pending := [.writeStream [0x41, 0x42]] } : State).pending =
      .writeStream [0x41, 0x42] :: [] := by decide

/-- AgentReads (each bank) and AgentWrites. -/
theorem witness_AgentReads :
    idle.rstIn = none ∧
    ({ idle with pending := [.agentRead 0x18] } : State).pending = .agentRead (Ops.fselAddr idle.cfg (6 : Fin 7)) :: [] ∧
    ({ idle with pending := [.agentRead 0x20] } : State).pending = .agentRead (Ops.setAddr idle.cfg (1 : Fin 2)) :: [] ∧
    ({ idle with pending := [.agentRead 0x28] } : State).pending = .agentRead (Ops.clrAddr idle.cfg (0 : Fin 2)) :: [] ∧
    ({ idle with pending := [.agentWrite 0x2C 1] } : State).pending =
      .agentWrite (Ops.addrOf idle.cfg (.clr 1)) 1 :: [] := by decide

/-- AgentWrites, its last clause: a write that keeps the duty of R156 (pin 32 is no bus pin of A). -/
theorem witness_AgentWrites : Claims.agentDuty idle (Ops.addrOf idle.cfg (.clr 1)) 1 :=
  ⟨⟨.clr 1, rfl⟩, fun l p h => by cases l <;> cases h <;> decide⟩

end Sys2Proof.Tests
end

section
/-! PROOFS. R25: outside DETACHED every line stays an output (O43). The three clauses of `Claims.busInvariant` are carried
through each thing a step can do. -/

namespace Sys2Proof.Proofs

open Machine Laws

/-- What `Claims.busInvariant` promises while no other agent has broken its duty. -/
structure BusHolds (s : State) : Prop where
  outputs : s.phase ≠ .detached → Claims.allOutputs s
  soFar : Claims.configuredSoFar s
  fresh : Claims.latchFresh s

theorem busInvariant_iff (s : State) : Claims.busInvariant s ↔ (s.trespass = false → BusHolds s) :=
  forall_congr' fun _ => ⟨fun ⟨ho, hc, hf⟩ => ⟨ho, hc, hf⟩, fun h => ⟨h.outputs, h.soFar, h.fresh⟩⟩

/-! ## The state a step hands to the block -/

/-- The state in which the block is left to itself, or takes a request: the countdown one lower, the moves `p` pending. -/
def moved (s : State) (p : List HostMove) : State := { timed s with pending := p }

/-- An idle block's request run whole, in the form `step_inversion` gives it. -/
theorem eq_finished_of_exec {i : Instr} {s t : State} {p : List HostMove} (hb : s.busy = false)
    (h : exec i (moved s p) = .next t) : t = finished i (moved s p) := by
  rw [exec_idle i (show (moved s p).busy = false from hb), Host.Outcome.next.injEq] at h
  exact h.symm

/-! ## CONFIG's list and the phase -/

theorem cfg_mem_config {c : Config} {l : Line} {p : Pin} (hp : c.pin? l = some p) :
    PinEvent.cfg l ∈ Claims.config c.params := by
  cases l
  case rw =>
    have hrw : c.params.bus.rw = some p := hp
    simp only [Claims.config, Claims.rwEvents, hrw]
    split <;> simp_all
  all_goals simp [Claims.config]

theorem events_of_config {p : Params} {i : Instr} (h : opcode i = 0x1) : Claims.events p i = Claims.config p := by
  cases i <;> simp [opcode] at h
  rfl

theorem length_list_config {s : State} (h : s.op = 0x1) :
    (Clock.list s).length = (Claims.config s.cfg.params).length := by
  rw [← events_configList s.nib, events_length]
  simp [Clock.list, Clock.program, h]

/-- CONFIG alone leaves DETACHED (R16). -/
theorem ne_detached_of_phaseAfter {op : BitVec 4} {ph : Phase} (hop : op ≠ 0x1)
    (h : Flags.phaseAfter op ph ≠ .detached) : ph ≠ .detached := by
  rintro rfl
  exact h (by simpa [Flags.phaseAfter] using hop)

/-! ## The invariant through the sequencer's operations -/

namespace BusHolds

variable {s : State}

/-- Only a busy block holds a word that CFG has read. -/
theorem rdata_idle (h : BusHolds s) (hb : s.busy = false) : s.rdata = none := by
  cases hr : s.rdata with
  | none => rfl
  | some w =>
    obtain ⟨hbusy, -, -⟩ := h.fresh w hr
    simp [hb] at hbusy

/-- A word that CFG has read belongs to the CFG at UPC. -/
theorem currentEvent_of_rdata (h : BusHolds s) {w : Word} (hr : s.rdata = some w) :
    ∃ l, Clock.currentEvent s = some (.cfg l) ∧ Ops.cfgRead s.cfg l s.block = some w := by
  obtain ⟨-, hop, l, hl, hw⟩ := h.fresh w hr
  exact ⟨l, by rw [currentEvent_config hop, hl], hw⟩

/-- An idle block with no word latched needs the first clause alone. -/
theorem of_idle (hb : s.busy = false) (hr : s.rdata = none) (h : s.phase ≠ .detached → Claims.allOutputs s) :
    BusHolds s where
  outputs := h
  soFar := by simp [Claims.configuredSoFar, hb]
  fresh := by simp [Claims.latchFresh, hr]

/-- Completion: a CONFIG at the end of its list has configured every line. -/
theorem complete (h : BusHolds s) (hb : s.busy = true) (hr : s.rdata = none) (hend : (Clock.list s).length ≤ s.upc) :
    BusHolds (Ops.complete s) := by
  refine of_idle rfl hr fun hph l p hp => ?_
  by_cases hop : s.op = 0x1
  · obtain ⟨k, hk⟩ := List.mem_iff_getElem?.mp (cfg_mem_config hp)
    have hlt : k < (Claims.config s.cfg.params).length := (List.getElem?_eq_some_iff.mp hk).1
    have hlen := length_list_config hop
    exact h.soFar hb hop k l p (by omega) hk hp
  · exact h.outputs (ne_detached_of_phaseAfter hop hph) l p hp

/-- The block after an event, or an acceptance, has completed. -/
theorem proceed (h : BusHolds s) (hb : s.busy = true) (hr : s.rdata = none) : BusHolds (Clock.proceed s) := by
  rcases proceed_cases s with ⟨-, hp⟩ | ⟨hend, hp⟩
  · rw [hp, loadDelay_eq]
    exact ⟨h.outputs, h.soFar, h.fresh⟩
  · rw [hp]
    exact h.complete hb hr hend

/-- An element performed: outputs stay outputs, and a CFG adds its own line. -/
theorem perform (h : BusHolds s) {m : MicroOp} (hm : Clock.current s = some m) (hr : s.rdata = none) :
    BusHolds (Ops.perform m s) where
  outputs hph l p hp := mode_output_stays _ _ _ _ (h.outputs hph l p hp)
  soFar := by
    intro hb hop k l p hk hl hp
    simp only [perform_busy, perform_op, perform_upc, perform_cfg, perform_block] at hb hop hk hl hp ⊢
    rcases Nat.lt_succ_iff_lt_or_eq.mp hk with hk | rfl
    · exact mode_output_stays _ _ _ _ (h.soFar hb hop k l p hk hl hp)
    · have he : Operands.event s.nib m = .cfg l := by
        rw [← currentEvent_config hop, Clock.currentEvent, hm] at hl
        exact Option.some.inj hl
      rw [he, mode_cfg _ hp, if_pos rfl]
  fresh := by simp [Claims.latchFresh, hr]

/-- Writing back a fresh word is the whole CFG. -/
theorem record_write (h : BusHolds s) {m : MicroOp} {l : Line} {w : Word} (hm : Clock.current s = some m)
    (he : Operands.event s.nib m = .cfg l) (hr : s.rdata = some w) :
    Ops.record m { s with rdata := none, block := Ops.cfgWrite s.cfg l w s.block } =
      Ops.perform m { s with rdata := none } := by
  obtain ⟨l', hl', hw⟩ := h.currentEvent_of_rdata hr
  have hll : l' = l := by
    rw [Clock.currentEvent, hm, Option.map_some, he] at hl'
    simpa using hl'.symm
  subst hll
  simp [Ops.perform, he, Ops.applyEvent, hw, Ops.dlyAfter]

/-- One tick of a busy block. -/
theorem tick (h : BusHolds s) (hb : s.busy = true) : BusHolds (Clock.tick s) := by
  rcases tick_cases s with ⟨hm, ht⟩ | ⟨m, c, hm, he, hd, ht⟩ | ⟨m, l, w, hm, he, hr, hw, ht⟩ |
    ⟨m, l, w, hm, he, hr, ht⟩ | ⟨m, hm, he, hd, ht⟩ <;> rw [ht]
  · have hr : s.rdata = none := Option.eq_none_iff_forall_ne_some.mpr fun w hw => by
      obtain ⟨l, hl, -⟩ := h.currentEvent_of_rdata hw
      simp [Clock.currentEvent, hm] at hl
    exact h.complete hb hr (List.getElem?_eq_none_iff.mp hm)
  · exact ⟨h.outputs, h.soFar, h.fresh⟩
  · have hev : Clock.currentEvent s = some (.cfg l) := by simp [Clock.currentEvent, hm, he]
    have hop := op_of_cfg hev
    refine ⟨h.outputs, h.soFar, fun w' hw' => ⟨hb, hop, l, ?_, ?_⟩⟩
    · rw [← hev, currentEvent_config hop]
    · rw [hw]
      exact hw'
  · rw [h.record_write hm he hr]
    have h' : BusHolds { s with rdata := none } := ⟨h.outputs, h.soFar, fun w hw => by simp at hw⟩
    exact (h'.perform hm rfl).proceed hb rfl
  · have hr : s.rdata = none := Option.eq_none_iff_forall_ne_some.mpr fun w hw => by
      obtain ⟨l, hl, -⟩ := h.currentEvent_of_rdata hw
      rw [Clock.currentEvent, hm, Option.map_some, Option.some_inj] at hl
      simp [(he l hl).1] at hw
    exact (h.perform hm hr).proceed hb hr

/-- An acceptance: UPC is 0, so no event of a CONFIG has completed. -/
theorem accept (h : BusHolds s) (hb : s.busy = false) (i : Instr) : BusHolds (Clock.accept i s) := by
  have hr := h.rdata_idle hb
  rw [Clock.accept, if_neg (by simp [hb])]
  refine proceed ⟨h.outputs, ?_, by simp [Claims.latchFresh, hr]⟩ rfl hr
  intro _ _ k l p hk
  simp at hk

/-- A request run whole. -/
theorem finished (h : BusHolds s) (hb : s.busy = false) (i : Instr) : BusHolds (Laws.finished i s) := by
  obtain ⟨-, hrdata, -⟩ := finished_rest i s
  refine of_idle (finished_busy i s) (hrdata.trans (h.rdata_idle hb)) fun hph l p hp => ?_
  rw [finished_cfg] at hp
  rw [finished_block]
  by_cases hop : opcode i = 0x1
  · rw [events_of_config hop, mode_applyEvents _ hp, if_pos (cfg_mem_config hp)]
  · rw [finished_phase] at hph
    exact mode_output_stays_all _ _ _ _ (h.outputs (ne_detached_of_phaseAfter hop hph) l p hp)

/-- Another agent's write that keeps its duty: every bus pin keeps its mode, and a latched word is still in the block. -/
theorem agentWrite (h : BusHolds s) {r : Reg} {v : Word} (hd : HostLayer.breaksDuty r v s = false) :
    BusHolds { s with block := Ops.writeReg r v s.block } where
  outputs hph l p hp := by
    obtain ⟨-, hmode, -⟩ := duty_kept hd hp
    exact hmode.trans (h.outputs hph l p hp)
  soFar hb hop k l p hk hl hp := by
    obtain ⟨-, hmode, -⟩ := duty_kept hd hp
    exact hmode.trans (h.soFar hb hop k l p hk hl hp)
  fresh w hw := by
    obtain ⟨hb, hop, l, hl, hread⟩ := h.fresh w hw
    refine ⟨hb, hop, l, hl, ?_⟩
    cases hp : s.cfg.pin? l with
    | none => simp [Ops.cfgRead, hp] at hread
    | some p =>
      obtain ⟨-, -, -, hword⟩ := duty_kept hd hp
      rw [cfgRead_eq _ hp] at hread
      show Ops.cfgRead s.cfg l (Ops.writeReg r v s.block) = some w
      rw [cfgRead_eq _ hp, hword (by simp [HostLayer.configRuns, hb, hop]), hread]

/-- What the outside moves is none of the invariant's business. -/
theorem moved (h : BusHolds s) (p : List HostMove) : BusHolds (moved s p) := ⟨h.outputs, h.soFar, h.fresh⟩

end BusHolds

/-- Settles O43: each thing a step can do keeps the clauses of the invariant. -/
theorem busInvariantKept : Obligations.BusInvariantKept := by
  intro s t hs h
  rw [busInvariant_iff] at hs ⊢
  intro htr
  rcases step_inversion h with ⟨-, rfl⟩ | ⟨-, hb, p, rfl⟩ | ⟨-, hb, w, -, ht⟩ | ⟨-, hb, w, -, rfl⟩ |
    ⟨-, p, r, g, c, n, q, -, rfl⟩ | ⟨-, p, a, v, r, -, -, rfl⟩
  · exact .of_idle rfl rfl fun hph => absurd rfl hph
  · obtain ⟨-, -, -, -, htrespass, -⟩ := tick_frame (moved s p)
    exact ((hs (htrespass.symm.trans htr)).moved p).tick hb
  · obtain rfl := eq_finished_of_exec hb ht
    obtain ⟨-, -, -, -, -, htrespass, -⟩ := finished_rest (decodeWord w) (moved s (HostLayer.afterAcceptance s.pending))
    exact ((hs (htrespass.symm.trans htr)).moved _).finished hb _
  · obtain ⟨-, -, -, -, htrespass, -⟩ := accept_frame (decodeWord w) (moved s (HostLayer.afterAcceptance s.pending))
    exact ((hs (htrespass.symm.trans htr)).moved _).accept hb _
  · exact ⟨(hs htr).outputs, (hs htr).soFar, (hs htr).fresh⟩
  · obtain ⟨ht, hd⟩ := Bool.or_eq_false_iff.mp htr
    have h' := (hs ht).agentWrite hd
    exact ⟨h'.outputs, h'.soFar, h'.fresh⟩

end Sys2Proof.Proofs
end

section
/-! PROOFS. The event lists (O27, O30) and the clocked sequencer that performs them (O33, O34). -/

namespace Sys2Proof.Proofs

open Machine Laws

/-- Settles O27: the state a request leaves is `finished`, whose TRACE and UPC the laws give. -/
theorem eventListIsFixed : Obligations.EventListIsFixed := fun i s hb =>
  ⟨finished i s, exec_idle i hb, finished_trace i s, finished_upc i s⟩

/-! ## Lengths (R14) -/

@[simp] theorem length_wrcmd (n : Nibble) : (Claims.wrcmd n).length = 11 := rfl

@[simp] theorem length_wrdata (v : Byte) : (Claims.wrdata v).length = 21 := rfl

@[simp] theorem length_cmdSeq (codes : List Nibble) (c : DelayClass) :
    (Claims.cmdSeq codes c).length = 11 * codes.length + 1 := by
  induction codes with
  | nil => rfl
  | cons n ns ih =>
    simp only [Claims.cmdSeq, List.length_append, length_wrcmd, ih, List.length_cons]
    omega

theorem length_config (p : Params) : (Claims.config p).length = if p.bus.rw = none then 6 else 8 := by
  unfold Claims.config Claims.rwEvents
  split <;> simp_all

theorem length_init (p : Params) : (Claims.init p).length = 87 + 11 * Claims.openNibbles p := by
  simp only [Claims.init, List.length_append, length_cmdSeq, List.length_cons, List.length_nil, Claims.openNibbles]
  omega

/-- The four open command lists hold at most eight nibbles (R8). -/
theorem openNibbles_le (c : Config) : Claims.openNibbles c.params ≤ 8 := by
  have h := config_lists c
  unfold Claims.openNibbles
  omega

/-- No list is longer than INIT's longest (R14). -/
theorem length_events_le (c : Config) (i : Instr) : (Claims.events c.params i).length ≤ 175 := by
  cases i with
  | config a =>
    rw [Claims.events, length_config]
    split <;> omega
  | init a =>
    have h := openNibbles_le c
    rw [Claims.events, length_init]
    omega
  | _ => simp [Claims.events]

/-- Settles O30, from the length of one CMDSEQ and the bound on the open lists. -/
theorem eventListLengths : Obligations.EventListLengths := fun c _ =>
  ⟨length_config c.params, length_init c.params, length_wrcmd _, length_wrdata _, length_cmdSeq _ _, length_cmdSeq _ _,
    length_cmdSeq _ _, rfl, length_events_le c⟩

/-! ## The clocked run (R71, R104, R212) -/

@[simp] theorem proceed_trace (s : State) : (Clock.proceed s).trace = s.trace := by simp [Clock.proceed]

@[simp] theorem proceed_upc (s : State) : (Clock.proceed s).upc = s.upc := by simp [Clock.proceed]

/-- Settles O34: of the things a tick can do, only the completion of the event at UPC reaches TRACE and UPC. -/
theorem tickEmitsTheEventAtUpc : Obligations.TickEmitsTheEventAtUpc := by
  intro s _
  rcases tick_cases s with ⟨-, ht⟩ | ⟨-, -, -, -, -, ht⟩ | ⟨-, -, w, -, -, -, -, ht⟩ |
    ⟨m, l, w, hm, -, -, ht⟩ | ⟨m, hm, -, -, ht⟩ <;> rw [ht]
  · exact .inl ⟨rfl, rfl⟩
  · exact .inl ⟨rfl, rfl⟩
  · exact .inl ⟨rfl, rfl⟩
  · exact .inr ⟨Operands.event s.nib m, by simp [Clock.currentEvent, hm], by simp, by simp⟩
  · exact .inr ⟨Operands.event s.nib m, by simp [Clock.currentEvent, hm], by simp, by simp⟩

/-- The CFGs of a request's list are of lines that exist (R6). -/
theorem pin_of_cfg_mem_events {c : Config} {i : Instr} {l : Line} (h : PinEvent.cfg l ∈ Claims.events c.params i) :
    c.pin? l ≠ none := by
  by_cases hop : opcode i = 0x1
  · rw [events_of_config hop] at h
    cases l
    case rw =>
      intro hrw
      have hrw' : c.params.bus.rw = none := hrw
      simp [Claims.config, Claims.rwEvents, hrw'] at h
    all_goals simp [BusAssignment.pin?]
  · exact absurd h (cfg_not_mem_events l _ i hop)

/-- The rest of a list, clocked: as many ticks as its events cost perform its elements and complete the operation. -/
theorem ticks_list (ms : List MicroOp) (s : State) (hms : (Clock.list s).drop s.upc = ms) (hr : s.rdata = none)
    (hp : ∀ l, PinEvent.cfg l ∈ Operands.events s.nib ms → s.cfg.pin? l ≠ none) :
    Clock.ticks (Clock.totalCost s.cfg.params (Operands.events s.nib ms)) (Clock.proceed s) =
      Ops.complete (Ops.performAll ms s) := by
  induction ms generalizing s with
  | nil => exact proceed_end (List.drop_eq_nil_iff.mp hms)
  | cons m ms ih =>
    have hm : Clock.current s = some m := by
      rw [Clock.current, ← List.head?_drop, hms, List.head?_cons]
    have hlt : s.upc < (Clock.list s).length := (List.getElem?_eq_some_iff.mp hm).1
    have hrest : (Clock.list (Ops.perform m s)).drop (Ops.perform m s).upc = ms := by
      rw [list_perform, perform_upc, ← List.tail_drop, hms, List.tail_cons]
    rw [proceed_inside hlt, events_cons]
    simp only [events_cons, List.mem_cons] at hp
    calc Clock.ticks (Clock.totalCost s.cfg.params
            (Operands.event s.nib m :: Operands.events (Operands.nibAfter s.nib m) ms)) (Clock.loadDelay s)
        = Clock.ticks (Clock.totalCost s.cfg.params (Operands.events (Operands.nibAfter s.nib m) ms))
            (Clock.ticks (Clock.cost s.cfg.params (Operands.event s.nib m)) (Clock.loadDelay s)) := by
          rw [← ticks_add, Clock.totalCost, List.map_cons, List.sum_cons, Clock.totalCost]
      _ = Clock.ticks (Clock.totalCost s.cfg.params (Operands.events (Operands.nibAfter s.nib m) ms))
            (Clock.proceed (Ops.perform m s)) := by
          rw [ticks_element hm hr fun l hl => hp l (.inl hl.symm)]
      _ = Ops.complete (Ops.performAll (m :: ms) s) := ih _ hrest hr fun l hl => hp l (.inr hl)

/-- Settles O33: the list of the accepted request, from its first element on. -/
theorem clockedRunIsTheOperation : Obligations.ClockedRunIsTheOperation := by
  intro i s hb hr
  have hrun := ticks_list (Clock.program s.cfg.params (opcode i) i.arg) (Ops.accept (opcode i) i.arg s) rfl hr
    fun l hl => pin_of_cfg_mem_events (by rwa [events_program] at hl)
  rw [events_program] at hrun
  rw [exec_idle i hb, Clock.accept, if_neg (by simp [hb])]
  exact congrArg _ hrun.symm

end Sys2Proof.Proofs
end

section
/-! PROOFS. What a step does or leaves alone, whatever it is: a busy block goes on (O39), the sticky flags, TRACE and the
parameters (O48 to O50), a reset (O40), a status read (O42). -/

namespace Sys2Proof.Proofs

open Machine Laws

/-! ## A busy block (R71) -/

/-- The pending moves are none of the sequencer's business. -/
theorem proceed_moves (s : State) (p : List HostMove) :
    Clock.proceed { s with pending := p } = { Clock.proceed s with pending := p } := by
  have hload : Clock.loadDelay { s with pending := p } = { Clock.loadDelay s with pending := p } := by
    have he : Clock.currentEvent { s with pending := p } = Clock.currentEvent s := rfl
    rw [Clock.loadDelay, he, Clock.loadDelay]
    split <;> rfl
  rcases proceed_cases s with ⟨hlt, h⟩ | ⟨hend, h⟩
  · rw [h, proceed_inside (s := { s with pending := p }) hlt, hload]
  · rw [h, proceed_end (s := { s with pending := p }) hend]
    rfl

/-! The converse of `tick_cases`: which tick the state at hand makes. -/

section Ticks

variable {s : State} {m : MicroOp}

theorem tick_over (hm : Clock.current s = none) : Clock.tick s = Ops.complete s := by
  simp only [Clock.tick, hm]

theorem tick_cycle {c : DelayClass} (hm : Clock.current s = some m) (he : Operands.event s.nib m = .wait c)
    (hd : 2 ≤ s.dly) : Clock.tick s = { s with dly := s.dly - 1 } := by
  simp only [Clock.tick, hm, he, if_neg (Nat.not_le.mpr hd)]

theorem tick_read {l : Line} {w : Word} (hm : Clock.current s = some m) (he : Operands.event s.nib m = .cfg l)
    (hr : s.rdata = none) (hw : Ops.cfgRead s.cfg l s.block = some w) : Clock.tick s = { s with rdata := some w } := by
  simp only [Clock.tick, hm, he, hr, hw]

theorem tick_write {l : Line} {w : Word} (hm : Clock.current s = some m) (he : Operands.event s.nib m = .cfg l)
    (hr : s.rdata = some w) : Clock.tick s =
      Clock.proceed (Ops.record m { s with rdata := none, block := Ops.cfgWrite s.cfg l w s.block }) := by
  simp only [Clock.tick, hm, he, hr]

theorem tick_whole (hm : Clock.current s = some m)
    (he : ∀ l, Operands.event s.nib m = .cfg l → s.rdata = none ∧ Ops.cfgRead s.cfg l s.block = none)
    (hd : ∀ c, Operands.event s.nib m = .wait c → s.dly ≤ 1) : Clock.tick s = Clock.proceed (Ops.perform m s) := by
  cases hev : Operands.event s.nib m with
  | hi l | lo l => simp only [Clock.tick, hm, hev]
  | wait c => simp only [Clock.tick, hm, hev, if_pos (hd c hev)]
  | cfg l =>
    obtain ⟨hr, hw⟩ := he l hev
    simp only [Clock.tick, hm, hev, hr, hw]

end Ticks

theorem tick_moves (s : State) (p : List HostMove) :
    Clock.tick { s with pending := p } = { Clock.tick s with pending := p } := by
  rcases tick_cases s with ⟨hm, ht⟩ | ⟨m, c, hm, he, hd, ht⟩ | ⟨m, l, w, hm, he, hr, hw, ht⟩ |
    ⟨m, l, w, hm, he, hr, ht⟩ | ⟨m, hm, he, hd, ht⟩ <;> rw [ht]
  · exact tick_over (s := { s with pending := p }) hm
  · exact tick_cycle (s := { s with pending := p }) hm he hd
  · exact tick_read (s := { s with pending := p }) hm he hr hw
  · exact (tick_write (s := { s with pending := p }) hm he hr).trans
      (proceed_moves (Ops.record m { s with rdata := none, block := Ops.cfgWrite s.cfg l w s.block }) p)
  · exact (tick_whole (s := { s with pending := p }) hm he hd).trans (proceed_moves (Ops.perform m s) p)

theorem tick_pending (s : State) : (Clock.tick s).pending = s.pending := by
  have h : Clock.tick s = { Clock.tick s with pending := s.pending } := tick_moves s s.pending
  rw [h]

/-- With nothing presented, or with a move that waits for the block, a busy block ticks. -/
theorem step_busy {s : State} (hb : s.busy = true) (hr : s.rstIn ≠ some 0)
    (hp : s.pending = [] ∨ ∃ m rest, s.pending = m :: rest ∧ HostLayer.waitsForIdle m = true) :
    step s = .next (Clock.tick (timed s)) := by
  have hb' : (timed s).busy = true := hb
  rw [step, arbitrate_eq s hr, HostLayer.unreset]
  rcases hp with hp | ⟨m, rest, hp, hw⟩
  · have hp' : (timed s).pending = [] := hp
    simp only [hp', Clock.edge, hb', if_true]
  · have hp' : (timed s).pending = m :: rest := hp
    simp only [hp', hb', hw, Bool.and_self, if_true]

/-- The outside lets the clock pass. -/
theorem step_busy_clock {s : State} (hb : s.busy = true) (hr : s.rstIn ≠ some 0) {rest : List HostMove}
    (hp : s.pending = .clock :: rest) : step s = .next (Clock.tick (moved s rest)) := by
  have hb' : (timed s).busy = true := hb
  have hp' : (timed s).pending = .clock :: rest := hp
  rw [step, arbitrate_eq s hr, HostLayer.unreset]
  simp [hp', hb', HostLayer.waitsForIdle, HostLayer.act, Clock.edge, moved]

/-- A request at the port is at the head of the pending moves, and waits for the block. -/
theorem waits_of_reqWord {s : State} {w : Request} (h : HostLayer.reqWord s = some w) :
    ∃ m rest, s.pending = m :: rest ∧ HostLayer.waitsForIdle m = true := by
  unfold HostLayer.reqWord at h
  split at h
  · exact ⟨_, _, ‹_›, rfl⟩
  · exact ⟨_, _, ‹_›, rfl⟩
  · simp at h

/-- Settles O39: the moves listed wait for the block, and a tick does not look at the pending moves. -/
theorem busyBlockHoldsTheRequest : Obligations.BusyBlockHoldsTheRequest := by
  intro s hb hr
  refine ⟨fun h => step_busy hb hr ?_, fun rest h => step_busy_clock hb hr h, fun w hw => ?_⟩
  · rcases h with h | h | ⟨rest, h | h | ⟨n, h⟩ | ⟨bytes, h⟩ | ⟨len, h⟩⟩
    · exact .inl h
    · obtain ⟨w, hw⟩ := Option.ne_none_iff_exists'.mp h
      exact .inr (waits_of_reqWord hw)
    all_goals exact .inr ⟨_, rest, h, rfl⟩
  · refine ⟨_, step_busy hb hr (.inr (waits_of_reqWord hw)), tick_pending _, ?_⟩
    rw [step_busy (s := { s with pending := [] }) hb hr (.inl rfl), ← tick_moves]
    rfl

/-! ## What every step but a reset keeps -/

/-- A step that is no reset, be it a tick, a request or a move of the outside: the parameters and the history stay, no sticky
flag is cleared, and TRACE grows at its end alone. -/
theorem step_frame {s t : State} (h : step s = .next t) (hr : s.rstIn ≠ some 0) :
    t.cfg = s.cfg ∧ (s.ill = true → t.ill = true) ∧ (s.viol = true → t.viol = true) ∧ t.history = s.history ∧
      ∃ es, t.trace = s.trace ++ es := by
  rcases step_inversion h with ⟨hr', -⟩ | ⟨-, hb, p, rfl⟩ | ⟨-, hb, w, -, ht⟩ | ⟨-, hb, w, -, rfl⟩ |
    ⟨-, p, r, g, c, n, q, -, rfl⟩ | ⟨-, p, a, v, r, -, -, rfl⟩
  · exact absurd hr' hr
  · obtain ⟨hcfg, hill, hviol, hhistory, -, -, htrace⟩ := tick_frame (moved s p)
    exact ⟨hcfg, hill.trans, hviol.trans, hhistory, htrace⟩
  · obtain rfl := eq_finished_of_exec hb ht
    obtain ⟨hcfg, -, hhistory, -⟩ := finished_rest (decodeWord w) (moved s (HostLayer.afterAcceptance s.pending))
    rw [finished_ill, finished_viol]
    exact ⟨hcfg, Bool.or_inl, Bool.or_inl, hhistory, _, finished_trace _ _⟩
  · obtain ⟨hcfg, hill, hviol, hhistory, -, -, htrace, -⟩ :=
      accept_frame (decodeWord w) (moved s (HostLayer.afterAcceptance s.pending))
    exact ⟨hcfg, hill, hviol, hhistory, [], htrace.trans (List.append_nil _).symm⟩
  · exact ⟨rfl, id, id, rfl, [], (List.append_nil _).symm⟩
  · exact ⟨rfl, id, id, rfl, [], (List.append_nil _).symm⟩

/-- Settles O48, from the frame of a step. -/
theorem stickyFlagsStay : Obligations.StickyFlagsStay := by
  intro s t h hr
  obtain ⟨-, hill, hviol, -⟩ := step_frame h hr
  exact ⟨hill, hviol⟩

/-- Settles O49, from the frame of a step. -/
theorem traceOnlyGrows : Obligations.TraceOnlyGrows := by
  intro s t h hr
  obtain ⟨-, -, -, hhistory, es, htrace⟩ := step_frame h hr
  exact ⟨es, htrace, hhistory⟩

/-- Settles O50: neither a reset nor any other step writes the configuration. -/
theorem parametersNeverChange : Obligations.ParametersNeverChange := by
  intro s t h
  by_cases hr : s.rstIn = some 0
  · rw [step_reset hr, Host.Outcome.next.injEq] at h
    rw [← h, rst_cfg]
  · obtain ⟨hcfg, -⟩ := step_frame h hr
    exact hcfg

/-! ## Reset and STATUS -/

/-- STATUS is a function of BUSY, PHASE and ILL alone (R19). -/
theorem status_eq (s : State) : Flags.status s =
    (0#4 ++ BitVec.ofBool s.ill) ++ Flags.phaseBits s.phase ++ BitVec.ofBool s.busy := rfl

theorem status_rst (s : State) : Flags.status (Ops.rst s) = 0x00 := by
  simp [status_eq, Flags.phaseBits]

/-- Settles O40: a step with `rst` asserted is `Ops.rst`. -/
theorem resetInARun : Obligations.ResetInARun := fun s h =>
  ⟨Ops.rst s, step_reset h, rfl, rfl, rfl, rfl, rfl, rfl, rfl, rfl, rfl, rfl, rfl, rfl, rfl, rfl, status_rst s, rfl⟩

/-- Settles O42: the twelve words STATUS can be, and the move that reads it. -/
theorem statusWord : Obligations.StatusWord := by
  constructor
  · intro s
    rw [status_eq]
    cases s.ill <;> cases s.phase <;> cases s.busy <;> decide
  · intro s rest hr hp
    rw [step_unreset hr, HostLayer.unreset, hp]
    simp [HostLayer.waitsForIdle, HostLayer.act, HostLayer.giveBack, status_eq]

end Sys2Proof.Proofs
end

section
/-! PROOFS. The phase a request leaves the block in (O24), and the state after reset (O41, O45). -/

namespace Sys2Proof.Proofs

open Machine Laws

/-- The model's rule for PHASE is the last column of the table of 95_test_vectors.md section 2.9. -/
theorem phaseAfter_opcode (i : Instr) (ph : Phase) : Flags.phaseAfter (opcode i) ph = Claims.endPhase i ph := by
  cases i <;> cases ph <;> rfl

/-- Settles O24: completion writes PHASE by the table. -/
theorem phaseAfterEachRequest : Obligations.PhaseAfterEachRequest := fun i s hb =>
  ⟨finished i s, exec_idle i hb, by rw [finished_phase, phaseAfter_opcode]⟩

theorem level_powerUp (p : Pin) : Ops.level RegBlock.powerUp p = .unknown := by
  simp [Ops.level, RegBlock.powerUp]

/-- Settles O41: the fields of `State.resetOn`, and the levels of the block at power-up. -/
theorem stateAfterReset : Obligations.StateAfterReset :=
  ⟨rfl, rfl, rfl, rfl, rfl, rfl, rfl, rfl, rfl, rfl, level_powerUp, rfl, rfl, rfl, rfl⟩

/-- Settles O45: the block is idle and DETACHED with nothing latched, its counters are 0, and nothing is pending. -/
theorem invariantsHoldAtReset : Obligations.InvariantsHoldAtReset := by
  refine ⟨(busInvariant_iff _).mpr fun _ => .of_idle rfl rfl fun hph => absurd rfl hph, ⟨?_, ?_, ?_⟩, rfl⟩
  · exact fun h => absurd rfl h
  · exact Nat.zero_le _
  · exact Nat.zero_le _

end Sys2Proof.Proofs
end

section
/-! PROOFS. The words of the register block: where each is found and what a write does (O5, O7 to O9). -/

namespace Sys2Proof.Proofs

open Machine Laws

/-! ## The map of the register block (R41, R53) -/

/-- The bank bases are multiples of 4, and so is every word's offset (R43). -/
theorem addrOf_mod_four (c : Config) (r : Reg) : Ops.addrOf c r % 4 = 0 := by
  obtain ⟨⟨hf, hs, hc⟩, -⟩ := config_banks c
  cases r <;> simp only [Ops.addrOf, Ops.fselAddr, Ops.setAddr, Ops.clrAddr] <;> omega

/-- Settles O5: the word found at an offset is at that offset, and a word is found at its own. -/
theorem registerMapOneToOne : Obligations.RegisterMapOneToOne := fun c r =>
  ⟨addrOf_mod_four c r, fun _ =>
    ⟨fun h => (addrOf_locate c h).symm, fun h => by rw [h, locate_addrOf]⟩⟩

/-! ## Word writes (R45 to R47, R50) -/

theorem pinMask_bit_iff (p : Pin) (i : Nat) (hi : i < 32) : (Ops.pinMask p).getLsbD i = true ↔ i = p.val % 32 := by
  rw [pinMask_bit p i hi, decide_eq_true_iff]

/-- Settles O7: the level after a set-word write, and the bits of a pin's mask. -/
theorem setWordAsserts : Obligations.SetWordAsserts :=
  ⟨fun b v k p => ⟨level_writeSet b v k p, fsel_writeSet b v k⟩, pinMask_bit_iff⟩

/-- Settles O8: the level after a clear-word write, and the bits of a pin's mask. -/
theorem clearWordDeasserts : Obligations.ClearWordDeasserts :=
  ⟨fun b v k p => ⟨level_writeClr b v k p, fsel_writeClr b v k⟩, pinMask_bit_iff⟩

theorem fsel_writeReg_twice (r : Reg) (v : Word) (k : RegBlock) :
    (Ops.writeReg r v (Ops.writeReg r v k)).fsel = (Ops.writeReg r v k).fsel := by
  cases r with
  | fsel b => simp only [fsel_writeFsel, Vector.set_set]
  | set b | clr b => rfl

theorem level_writeReg_twice (r : Reg) (v : Word) (k : RegBlock) (p : Pin) :
    Ops.level (Ops.writeReg r v (Ops.writeReg r v k)) p = Ops.level (Ops.writeReg r v k) p := by
  cases r with
  | fsel b => rfl
  | set b => simp only [level_writeSet]; split <;> rfl
  | clr b => simp only [level_writeClr]; split <;> rfl

theorem shown_writeReg_twice (r : Reg) (v : Word) (k : RegBlock) (p : Pin) :
    Ops.shown (Ops.writeReg r v (Ops.writeReg r v k)) p = Ops.shown (Ops.writeReg r v k) p := by
  cases r with
  | fsel b => rw [shown_writeFsel, if_pos (mode_congr (fsel_writeReg_twice _ _ _) p)]
  | set b => simp only [shown_writeSet, mode_writeSet]; split <;> rfl
  | clr b => simp only [shown_writeClr, mode_writeClr]; split <;> rfl

/-- Settles O9: the second write leaves the words, the levels and the lines of every pin. -/
theorem wordWritesIdempotent : Obligations.WordWritesIdempotent := fun r v k =>
  block_ext (fsel_writeReg_twice r v k) (level_writeReg_twice r v k) (shown_writeReg_twice r v k)

end Sys2Proof.Proofs
end

section
/-! PROOFS. What the block leaves alone: the pins outside the bus assignment, in every step (O46), and the frame of a request
(O25) and of CONFIG (O26). -/

namespace Sys2Proof.Proofs

open Machine Laws

/-! ## Pins outside the bus assignment (R60, R103) -/

/-- The pin has the level and the mode it had, and what had reached its line is unchanged (log entry 20). -/
def PinKept (k k' : RegBlock) (q : Pin) : Prop :=
  Ops.level k' q = Ops.level k q ∧ Ops.mode k' q = Ops.mode k q ∧ Ops.shown k' q = Ops.shown k q

/-- No list of events touches a pin that no line is assigned to. -/
theorem pinKept_applyEvents {c : Config} {q : Pin} (hq : ∀ l, c.pin? l ≠ some q) (es : List PinEvent)
    (k : RegBlock) : PinKept k (applyEvents c es k) q := by
  have hmode := mode_applyEvents_other c es k q fun l hl => absurd hl (hq l)
  exact ⟨level_applyEvents_other c es k q fun l hl => absurd hl (hq l), hmode,
    shown_applyEvents_other c es k q (fun l hl => absurd hl (hq l)) hmode⟩

@[simp] theorem proceed_block (s : State) : (Clock.proceed s).block = s.block := by simp [Clock.proceed]

/-- What a tick does to the register block, pin events do: under the invariant of R25 the word a CFG writes back is the one
it would read now. -/
theorem BusHolds.tick_block {s : State} (h : BusHolds s) :
    ∃ es, (Clock.tick s).block = applyEvents s.cfg es s.block := by
  rcases tick_cases s with ⟨-, ht⟩ | ⟨-, -, -, -, -, ht⟩ | ⟨-, -, w, -, -, -, -, ht⟩ |
    ⟨m, l, w, hm, he, hr, ht⟩ | ⟨m, -, -, -, ht⟩
  · exact ⟨[], by rw [ht]; rfl⟩
  · exact ⟨[], by rw [ht]; rfl⟩
  · exact ⟨[], by rw [ht]; rfl⟩
  · exact ⟨[.cfg l], by rw [ht, h.record_write hm he hr, proceed_block, perform_block, he]; rfl⟩
  · exact ⟨[Operands.event s.nib m], by rw [ht, proceed_block, perform_block]; rfl⟩

/-- Settles O46: whatever a step does to the register block, unless another agent writes, a list of pin events does. -/
theorem outsidePinsNeverTouched : Obligations.OutsidePinsNeverTouched := by
  intro s t hs htr h hno q hq
  have hbus := (busInvariant_iff s).mp hs htr
  suffices hes : ∃ es, t.block = applyEvents s.cfg es s.block by
    obtain ⟨es, hes⟩ := hes
    rw [hes]
    exact pinKept_applyEvents hq es s.block
  rcases step_inversion h with ⟨-, rfl⟩ | ⟨-, -, p, rfl⟩ | ⟨-, hb, w, -, ht⟩ | ⟨-, -, w, -, rfl⟩ |
    ⟨-, -, -, -, -, -, -, -, rfl⟩ | ⟨-, p, a, v, -, hp, -, -⟩
  · exact ⟨[], rfl⟩
  · exact (hbus.moved p).tick_block
  · obtain rfl := eq_finished_of_exec hb ht
    exact ⟨_, finished_block _ _⟩
  · obtain ⟨-, -, -, -, -, -, -, hblock⟩ :=
      accept_frame (decodeWord w) (moved s (HostLayer.afterAcceptance s.pending))
    exact ⟨[], hblock⟩
  · exact ⟨[], rfl⟩
  · exact absurd hp (hno a v p)

/-! ## What a request leaves alone -/

/-- A request either meets a busy block, which it leaves as it is, or runs to its end (R71). -/
theorem exec_cases {i : Instr} {s t : State} (h : exec i s = .next t) : t = s ∨ t = finished i s := by
  cases hb : s.busy with
  | true =>
    rw [exec_busy i hb, Host.Outcome.next.injEq] at h
    exact .inl h.symm
  | false =>
    rw [exec_idle i hb, Host.Outcome.next.injEq] at h
    exact .inr h.symm

/-- DETACH and the reserved codes have the empty list (R74, R129). -/
theorem events_eq_nil {i : Instr} (h : i.isReserved = true ∨ opcode i = 0x8) (p : Params) :
    Claims.events p i = [] := by
  cases i <;> simp [Instr.isReserved, opcode] at h <;> rfl

/-- CONFIG, DETACH and the reserved codes place no nibble (R12). -/
theorem finished_nib_kept {i : Instr} (h : i.isReserved = true ∨ opcode i = 0x8 ∨ opcode i = 0x1) (s : State) :
    (finished i s).nib = s.nib := by
  rw [finished_nib]
  cases i <;> simp [Instr.isReserved, opcode] at h
  case config a =>
    show (Protocol.configList s.cfg.params).foldl Operands.nibAfter s.nib = s.nib
    unfold Protocol.configList Protocol.rwList
    split <;> rfl
  all_goals rfl

/-- CONFIG, DETACH and the reserved codes make no wait (R104). -/
theorem finished_dly_kept {i : Instr} (h : i.isReserved = true ∨ opcode i = 0x8 ∨ opcode i = 0x1) (s : State) :
    (finished i s).dly = s.dly := by
  rw [finished_dly]
  cases i <;> simp [Instr.isReserved, opcode] at h
  case config a =>
    simp only [Claims.events, Claims.config, Claims.rwEvents]
    split <;> rfl
  all_goals rfl

theorem reservedOp_opcode (i : Instr) : Flags.reservedOp (opcode i) = i.isReserved := by
  cases i <;> rfl

/-- CONFIG changes no level but RW's (R125). -/
theorem finished_levels_config {i : Instr} (h : opcode i = 0x1) (s : State) :
    Claims.levelsKeptBut [.rw] s (finished i s) := by
  intro p hp
  have hd : ∀ l, s.cfg.pin? l = some p →
      PinEvent.hi l ∉ Claims.config s.cfg.params ∧ PinEvent.lo l ∉ Claims.config s.cfg.params := fun l hl => by
    rw [← lastDrive_none_iff]
    exact config_drives_only_rw _ l fun hrw => hp l (by simp [hrw]) hl
  rw [finished_block, events_of_config h]
  exact ⟨level_applyEvents_other _ _ _ _ hd, shown_applyEvents_other _ _ _ _ hd⟩

/-- Settles O25: the fields of the state a request leaves at an idle block. -/
theorem requestFrame : Obligations.RequestFrame := by
  intro i s t h
  rcases exec_cases h with rfl | rfl
  · simp [Claims.restKept, Claims.levelsKeptBut]
  · refine ⟨finished_rest i s, finished_fsel i s, fun hop => finished_levels_config hop s, finished_levels i s,
      fun hi => ?_, fun hi => ⟨finished_nib_kept hi s, finished_dly_kept hi s⟩, fun hi => ?_⟩
    · rw [finished_block, finished_trace, events_eq_nil hi]
      exact ⟨rfl, List.append_nil _⟩
    · rw [finished_ill, reservedOp_opcode, hi, Bool.or_false]

/-- Settles O26: a word without a bus pin's field, and a pin without a line, through CONFIG's list. -/
theorem configFrame : Obligations.ConfigFrame := by
  intro s t arg h
  rcases exec_cases h with rfl | rfl
  · exact ⟨fun _ _ => rfl, fun _ _ => rfl⟩
  · rw [finished_block]
    refine ⟨fun b hb => word_applyEvents _ _ _ b fun l p hp he => hb l p hp (congrArg Fin.val he), fun q hq => ?_⟩
    obtain ⟨-, hmode, -⟩ := pinKept_applyEvents hq (Claims.events s.cfg.params (.config arg)) s.block
    exact hmode

end Sys2Proof.Proofs
end

section
/-! PROOFS. Another agent's accesses of the register block (R51, R156, R207, R208): its reads (O59), a write between the
two accesses of CFG (O36), and its writes and their duty (O60). -/

namespace Sys2Proof.Proofs

open Machine Laws

/-- Another agent's read waits for nothing. -/
theorem step_agentRead {s : State} {a : Nat} {rest : List HostMove} (h : s.rstIn = none)
    (hp : s.pending = .agentRead a :: rest) : step s = HostLayer.agentRead a { s with pending := rest } := by
  rw [step_unreset h, HostLayer.unreset, hp]
  simp [HostLayer.waitsForIdle, HostLayer.act]

theorem locate_fselAddr (c : Config) (b : Fin 7) : Ops.locate c (Ops.fselAddr c b) = some (.fsel b) :=
  locate_addrOf c (.fsel b)

theorem locate_setAddr (c : Config) (b : Fin 2) : Ops.locate c (Ops.setAddr c b) = some (.set b) :=
  locate_addrOf c (.set b)

theorem locate_clrAddr (c : Config) (b : Fin 2) : Ops.locate c (Ops.clrAddr c b) = some (.clr b) :=
  locate_addrOf c (.clr b)

/-- Settles O59: each bank's word is found at its offset. -/
theorem agentReads : Obligations.AgentReads := by
  intro s rest hr
  refine ⟨fun b hp => ?_, fun b => ⟨fun hp => ?_, fun hp => ?_⟩⟩
  · rw [step_agentRead hr hp, HostLayer.agentRead, locate_fselAddr]
    rfl
  · rw [step_agentRead hr hp, HostLayer.agentRead, locate_setAddr]
  · rw [step_agentRead hr hp, HostLayer.agentRead, locate_clrAddr]

/-- What a write to a pin's function-select word leaves there to read. -/
theorem memRead_writeReg_fselOf (c : Config) (p : Pin) (v : Word) (k : RegBlock) :
    Ops.memRead c (Ops.fselAddrOf c p) (Ops.writeReg (.fsel (fselOf p)) v k) = some v := by
  rw [memRead_fselAddrOf, fsel_writeFsel]
  simp

/-- The second access of CFG, after a read that gave `w`, leaves `w` with the pin made an output there (R100). -/
theorem memRead_tick_of_rdata {s : State} {l : Line} {p : Pin} {w : Word}
    (he : Clock.currentEvent s = some (.cfg l)) (hp : s.cfg.pin? l = some p) (hr : s.rdata = some w) :
    Ops.memRead s.cfg (Ops.fselAddrOf s.cfg p) (Clock.tick s).block = some (Ops.asOutput p w) := by
  obtain ⟨m, hm, hev⟩ := Option.map_eq_some_iff.mp he
  rw [tick_write hm hev hr, proceed_block, record_block, cfgWrite_eq _ hp, memRead_writeReg_fselOf]

/-- Settles O36: the agent's write leaves the word latched by CFG alone, and CFG then writes that word back. -/
theorem writeDuringCfgIsLost : Obligations.WriteDuringCfgIsLost := by
  intro s l p w v rest _ he hp hw hr hpend
  refine ⟨_, step_agentWrite hr hpend (locate_fselAddrOf s.cfg p), memRead_writeReg_fselOf s.cfg p v s.block, ?_⟩
  -- what the agent's write leaves of the sequencer is what it was, the latched word included
  exact memRead_tick_of_rdata (s := { s with pending := rest, block := _, trespass := _ }) he hp hw

theorem addrOf_eq_fselAddr_iff (c : Config) (r : Reg) (p : Pin) :
    Ops.addrOf c r = Ops.fselAddr c (p.val / 10) ↔ .fsel (fselOf p) = r :=
  ⟨fun h => addrOf_injective c (r := .fsel (fselOf p)) h.symm, fun h => by rw [← h]; rfl⟩

theorem addrOf_eq_setAddr_iff (c : Config) (r : Reg) (p : Pin) :
    Ops.addrOf c r = Ops.setAddr c (p.val / 32) ↔ .set (bankOf p) = r :=
  ⟨fun h => addrOf_injective c (r := .set (bankOf p)) h.symm, fun h => by rw [← h]; rfl⟩

theorem addrOf_eq_clrAddr_iff (c : Config) (r : Reg) (p : Pin) :
    Ops.addrOf c r = Ops.clrAddr c (p.val / 32) ↔ .clr (bankOf p) = r :=
  ⟨fun h => addrOf_injective c (r := .clr (bankOf p)) h.symm, fun h => by rw [← h]; rfl⟩

/-- The model's check of the fourth row of R156 is the row. -/
theorem breaksDuty_eq_false_iff (r : Reg) (v : Word) (s : State) :
    HostLayer.breaksDuty r v s = false ↔ Claims.agentDuty s (Ops.addrOf s.cfg r) v := by
  simp only [HostLayer.breaksDuty, List.any_eq_false, pin_mem_iff, Claims.agentDuty, addrOf_eq_fselAddr_iff,
    addrOf_eq_setAddr_iff, addrOf_eq_clrAddr_iff, forall_exists_index]
  rw [and_iff_right ⟨r, rfl⟩, forall_comm]
  refine forall_congr' fun l => forall_congr' fun p => imp_congr_right fun _ => ?_
  cases r with
  | fsel b =>
    simp only [HostLayer.inReg, HostLayer.configRuns, mode_writeFsel, Ops.fieldShift, fselOf, Reg.fsel.injEq,
      Fin.ext_iff, Bool.and_eq_true, beq_iff_eq, not_and, reduceCtorEq, or_self, false_implies, and_true]
    refine imp_congr_right fun hb => ?_
    simp [hb]
  | set b => simp [HostLayer.inReg, bankOf, Fin.ext_iff]
  | clr b => simp [HostLayer.inReg, bankOf, Fin.ext_iff]

/-- Settles O60: the agent's write as `step_agentWrite` gives it, its breach by `breaksDuty_eq_false_iff`. -/
theorem agentWrites : Obligations.AgentWrites := by
  intro s r v rest hr hp
  refine ⟨_, step_agentWrite hr hp (locate_addrOf s.cfg r), rfl, ?_, fun hd l p hl => ?_⟩
  · rw [← breaksDuty_eq_false_iff, Bool.or_eq_true, Bool.not_eq_false]
  · obtain ⟨hlevel, hmode, hshown, -⟩ := duty_kept ((breaksDuty_eq_false_iff r v s).mpr hd) hl
    exact ⟨hlevel, hmode, hshown⟩

end Sys2Proof.Proofs
end

section
/-! PROOFS. The request word: decoding against encoding (O1, O2), the operand that an operation ignores (O4), the
pseudo-operations of the assembler (O3), and a word at the port, accepted and run (O32, O37, O38). -/

namespace Sys2Proof.Proofs

open Machine Laws

/-! ## Decoding and encoding (R72, R74) -/

/-- Each request is the entry of the table at its own operation code. -/
theorem decodeFields_opcode_arg (i : Instr) : decodeFields (opcode i) i.arg = i := by
  cases i <;> rfl

@[simp] theorem decodeWord_encode (i : Instr) : decodeWord (encode i) = i := by
  rw [decodeWord, requestOp_encode, requestArg_encode, decodeFields_opcode_arg]

/-- A word is its operation code above its operand: the format has no other bits (R72, R75). -/
theorem requestOp_append_requestArg (w : Request) : requestOp w ++ requestArg w = w := by
  rw [requestOp, requestArg, BitVec.extractLsb'_append_extractLsb'_eq_extractLsb' (by decide)]
  exact BitVec.extractLsb'_eq_self

@[simp] theorem encode_decodeWord (w : Request) : encode (decodeWord w) = w := by
  obtain ⟨hop, harg⟩ := decodeFields_fields (requestOp w) (requestArg w)
  rw [encode, decodeWord, hop, harg, requestOp_append_requestArg]

/-- The table's decoder reads the numbers below 2^12, and each as the word it is. -/
theorem decodeTableWord_eq_some_iff (n w : Nat) (i : Instr) :
    decodeTableWord n w = some i ↔ w < 4096 ∧ decodeWord (BitVec.ofNat 12 w) = i := by
  rw [decodeTableWord, decodeNat]
  split <;> simp_all [Except.toOption]

/-- Settles O1: the table has each request at its code, and a word has no bits but its two fields. -/
theorem requestWordRoundTrip : Obligations.RequestWordRoundTrip :=
  ⟨decodeWord_encode, encode_decodeWord, fun n i =>
    (decodeTableWord_eq_some_iff n _ i).mpr
      ⟨(encode i).isLt, by rw [BitVec.ofNat_toNat, BitVec.setWidth_eq, decodeWord_encode]⟩⟩

/-- Settles O2: each of the twelve words is the encoding of its request, and 0x1000 is not below 2^12. -/
theorem sampleWordsDecode : Obligations.SampleWordsDecode :=
  ⟨decodeWord_encode (.config 0x00), decodeWord_encode (.init 0x00), decodeWord_encode (.wrcmd 0x01),
    decodeWord_encode (.wrdata 0x41), decodeWord_encode (.clear 0x00), decodeWord_encode (.home 0x00),
    decodeWord_encode (.line2 0x00), decodeWord_encode (.detach 0x00), decodeWord_encode (.reserved0 0x00),
    decodeWord_encode (.reserved0 0xFF), decodeWord_encode (.reserved9 0x00), decodeWord_encode (.reservedF 0xFF),
    rfl⟩

/-! ## The assembler's pseudo-operations (R81, R84) -/

theorem low_shiftRight_four (b : Byte) : Claims.low (b >>> 4) = Claims.high b := rfl

theorem low_and_fifteen (b : Byte) : Claims.low (b &&& 0xF) = Claims.low b := by
  rw [Claims.low, BitVec.and_assoc, BitVec.and_self, Claims.low]

/-- The events of CMD8: the command writes of the two nibbles of the byte, high nibble first. -/
theorem events_cmd8 (p : Params) (b : Byte) :
    (AsmLine.requests (.cmd8 b)).flatMap (Claims.events p) =
      Claims.wrcmd (Claims.high b) ++ (Claims.wrcmd (Claims.low b) ++ []) := by
  rw [← low_shiftRight_four, ← low_and_fifteen b]
  rfl

/-- Settles O3: the frame of a command write is its nibble, whatever the lines held. -/
theorem pseudoOperationsExpand : Obligations.PseudoOperationsExpand := by
  refine ⟨rfl, fun v => rfl, fun b p v => ⟨rfl, ?_⟩⟩
  rw [events_cmd8, frames_wrcmd, frames_wrcmd]
  rfl

/-! ## The operand an operation does not use (R73) -/

/-- The elements of a list do not read ARG. -/
theorem performAll_arg_update (ms : List MicroOp) (s : State) (a : Byte) :
    Ops.performAll ms { s with arg := a } = { Ops.performAll ms s with arg := a } := by
  induction ms generalizing s with
  | nil => rfl
  | cons m ms ih => exact ih (Ops.perform m s)

/-- A request with the operation code and the list of `i` does what `i` does, but for ARG. -/
theorem exec_of_program_eq {i i' : Instr} {s : State} (hb : s.busy = false) (hop : opcode i' = opcode i)
    (hlist : Clock.program s.cfg.params (opcode i) i'.arg = Clock.program s.cfg.params (opcode i) i.arg) :
    exec i' s = .next { finished i s with arg := i'.arg } := by
  have haccept : Ops.accept (opcode i) i'.arg s = { Ops.accept (opcode i) i.arg s with arg := i'.arg } := rfl
  rw [exec_idle i' hb, finished, hop, hlist, haccept, performAll_arg_update]
  rfl

theorem sameButArg_of_program_eq {i i' : Instr} {s : State} (hb : s.busy = false) (hop : opcode i' = opcode i)
    (hlist : Clock.program s.cfg.params (opcode i) i'.arg = Clock.program s.cfg.params (opcode i) i.arg) :
    Claims.sameButArg i i' s :=
  ⟨finished i s, exec_of_program_eq hb rfl rfl, exec_of_program_eq hb hop hlist⟩

/-- WRCMD's list is that of the low nibble of its operand (R78, R120). -/
theorem wrcmdList_congr {a b : Byte} (h : Claims.low a = Claims.low b) :
    Protocol.wrcmdList b = Protocol.wrcmdList a := by
  rw [Protocol.wrcmdList, cmdNib_eq, ← h, ← cmdNib_eq, Protocol.wrcmdList]

/-- Settles O4: the list of an operation without operand is chosen by its code alone, WRCMD's by `arg[3:0]`. -/
theorem operandFieldIgnored : Obligations.OperandFieldIgnored := by
  refine ⟨fun s a b hb => ?_, fun a => ?_⟩
  · refine ⟨?_, ?_, ?_, ?_, ?_, ?_, fun h => sameButArg_of_program_eq hb rfl (wrcmdList_congr h)⟩
    all_goals exact sameButArg_of_program_eq hb rfl rfl
  · exact ⟨beq_iff_eq, beq_iff_eq, beq_iff_eq, beq_iff_eq, beq_iff_eq, beq_iff_eq⟩

/-! ## Acceptance at a clock edge (R71, R173) -/

/-- The model's phase check is the table of R173. -/
theorem violates_opcode_iff (i : Instr) (ph : Phase) :
    Flags.violates (opcode i) ph = true ↔ Claims.breaksContract i ph := by
  cases i <;> cases ph <;> simp [Flags.violates, Flags.reservedOp, opcode, Claims.breaksContract]

/-- The list of an accepted request is as long as the request's event list. -/
theorem length_list_accept (i : Instr) (s : State) :
    (Clock.list (Ops.accept (opcode i) i.arg s)).length = (Claims.events s.cfg.params i).length := by
  rw [← events_program s.nib, events_length]
  rfl

/-- After acceptance, or an event, the block is busy exactly while its list has an element left (R14). -/
theorem proceed_busy_iff {s : State} (hb : s.busy = true) :
    (Clock.proceed s).busy = true ↔ s.upc < (Clock.list s).length := by
  rcases proceed_cases s with ⟨hlt, h⟩ | ⟨hend, h⟩
  · simp [h, hb, hlt]
  · simp [h, hend]

/-- Settles O32: what acceptance writes stays when the block goes on or, its list being empty, completes. -/
theorem acceptanceAtAnEdge : Obligations.AcceptanceAtAnEdge := by
  intro i s hb
  obtain ⟨-, -, -, -, -, -, htrace, hblock⟩ := accept_frame i s
  have haccept : Clock.accept i s = Clock.proceed (Ops.accept (opcode i) i.arg s) := if_neg (by simp [hb])
  refine ⟨?_, ?_, ?_, htrace, hblock, ?_, ?_⟩ <;> rw [haccept]
  · simp [Clock.proceed]
  · simp [Clock.proceed]
  · simp [Clock.proceed]
  · rw [proceed_busy_iff rfl, length_list_accept, accept_upc, List.length_pos_iff]
  · simp [Clock.proceed, violates_opcode_iff]

/-! ## A word at the port (R70, R71) -/

/-- Settles O37: the word at the port of an idle block is taken. -/
theorem stepRunsTheDecodedRequest : Obligations.StepRunsTheDecodedRequest := by
  intro s w hr hb hw
  have hstep := step_takes_request hr hb hw
  constructor
  all_goals
    intro hpace
    rw [hpace] at hstep
    exact hstep

/-- Settles O38: the placed word stands at the port, and taking it leaves what was pending before. -/
theorem placedWordRunsNext : Obligations.PlacedWordRunsNext := by
  intro s n w i h
  obtain ⟨-, rfl⟩ := (decodeTableWord_eq_some_iff n w i).mp h
  obtain ⟨hwhole, -⟩ := stepRunsTheDecodedRequest (s.withFetchWord n w) (BitVec.ofNat 12 w) nofun rfl rfl
  exact hwhole rfl

end Sys2Proof.Proofs
end

section
/-! PROOFS. The addresses and masks of HI and LO (O6). -/

namespace Sys2Proof.Proofs

open Machine Laws

/-- A mask has one bit, which tells the pin's place in its word (R77). -/
theorem pinMask_eq_iff (p q : Pin) : Ops.pinMask p = Ops.pinMask q ↔ p.val % 32 = q.val % 32 := by
  refine ⟨fun h => ?_, fun h => by rw [Ops.pinMask, h, Ops.pinMask]⟩
  have hlt : p.val % 32 < 32 := Nat.mod_lt _ (by decide)
  rw [← pinMask_bit_iff q _ hlt, ← h, pinMask_bit_iff p _ hlt]

/-- Bank and mask together tell the pin. -/
theorem pin_eq_of_bank_of_mask {p q : Pin} (hbank : bankOf p = bankOf q) (hmask : Ops.pinMask p = Ops.pinMask q) :
    p = q := by
  have hmod := (pinMask_eq_iff p q).mp hmask
  have hdiv : p.val / 32 = q.val / 32 := congrArg Fin.val hbank
  exact Fin.ext (by omega)

/-- Settles O6: the words of two pins' addresses, and of a set and a clear address, are told apart by `Ops.locate`. -/
theorem bankedAddressesDistinct : Obligations.BankedAddressesDistinct := by
  intro c p q
  simp only [ne_eq, Prod.mk.injEq, not_and]
  refine ⟨fun ⟨haddr, hmask⟩ => ?_, fun ⟨haddr, hmask⟩ => ?_, fun haddr => ?_⟩
  · have hreg : Reg.set (bankOf p) = .set (bankOf q) := addrOf_injective c haddr
    exact pin_eq_of_bank_of_mask (Reg.set.inj hreg) hmask
  · have hreg : Reg.clr (bankOf p) = .clr (bankOf q) := addrOf_injective c haddr
    exact pin_eq_of_bank_of_mask (Reg.clr.inj hreg) hmask
  · have hreg : Reg.set (bankOf p) = .clr (bankOf q) := addrOf_injective c haddr
    cases hreg

end Sys2Proof.Proofs
end

section
/-! PROOFS. The pin primitives: the register accesses of CFG, HI and LO (O10 to O12), the pulse that every assertion of
EN is the middle of and the lines driven outside it (O28, O29), and the wait (O35). -/

namespace Sys2Proof.Proofs

open Machine Laws

/-! ## The pin events (R100 to R102) -/

/-- A second CFG would write back the word the first one left (R100). -/
theorem asOutput_asOutput (p : Pin) (w : Word) : Ops.asOutput p (Ops.asOutput p w) = Ops.asOutput p w := by
  apply BitVec.eq_of_getLsbD_eq
  intro i hi
  rw [asOutput_bit _ _ _ hi, asOutput_bit _ _ _ hi]
  split <;> rfl

theorem applyEvent_cfg_twice (c : Config) {l : Line} {p : Pin} (hp : c.pin? l = some p) (k : RegBlock) :
    Ops.applyEvent c (.cfg l) (Ops.applyEvent c (.cfg l) k) = Ops.applyEvent c (.cfg l) k := by
  have hword : (Ops.applyEvent c (.cfg l) k).fsel[fselOf p] = Ops.asOutput p k.fsel[fselOf p] := by
    simp [applyEvent_cfg c hp]
  rw [applyEvent_cfg c hp (Ops.applyEvent c (.cfg l) k), hword, asOutput_asOutput, applyEvent_cfg c hp,
    wordWritesIdempotent]

/-- Settles O10: CFG is its write access, one function-select word written with the pin's field made `0b001`. -/
theorem cfgMakesOnePinAnOutput : Obligations.CfgMakesOnePinAnOutput := by
  intro c l p k hp
  refine ⟨⟨k.fsel[fselOf p], memRead_fselAddrOf c p k, ?_, ?_⟩, ?_, fun q hq => ?_, ?_, level_cfg c l k,
    applyEvent_cfg_twice c hp k⟩
  · simp only [Observe.accessesOf, cfgRead_eq c hp, hp]
    rfl
  · rw [applyEvent_cfg c hp]
    exact (memWrite_fselAddrOf c p _ k).symm
  · rw [mode_cfg c hp, if_pos rfl]
  · rw [mode_cfg c hp, if_neg hq]
  · exact top_applyEvents c [.cfg l] k

/-- Settles O11: the mask hits the pin and no other, and a set word holds no mode. -/
theorem hiAssertsOnePin : Obligations.HiAssertsOnePin := by
  intro c l p k hp
  refine ⟨?_, ?_, ?_, fun q hq => ?_, mode_congr (fsel_hi c l k)⟩
  · simp only [Observe.accessesOf, hp]
    rfl
  · simp only [Ops.applyEvent, hp]
    rfl
  · rw [level_hi c hp, if_pos rfl]
  · rw [level_hi c hp, if_neg hq]

/-- Settles O12: the mask hits the pin and no other, and a clear word holds no mode. -/
theorem loDeassertsOnePin : Obligations.LoDeassertsOnePin := by
  intro c l p k hp
  refine ⟨?_, ?_, ?_, fun q hq => ?_, mode_congr (fsel_lo c l k)⟩
  · simp only [Observe.accessesOf, hp]
    rfl
  · simp only [Ops.applyEvent, hp]
    rfl
  · rw [level_lo c hp, if_pos rfl]
  · rw [level_lo c hp, if_neg hq]

/-! ## The enable pulse (R106, R107) -/

/-- A list put together from whole pulses and from lists that do not assert EN. -/
inductive Pulsed : List PinEvent → Prop where
  | quiet {es : List PinEvent} (h : .hi .en ∉ es) : Pulsed es
  | pulse : Pulsed Claims.pulse
  | append {as bs : List PinEvent} (ha : Pulsed as) (hb : Pulsed bs) : Pulsed (as ++ bs)

theorem hi_en_not_mem_busUpd (n : Nibble) : .hi .en ∉ Claims.busUpd n := by
  revert n; decide

theorem hi_en_not_mem_config (p : Params) : .hi .en ∉ Claims.config p := by
  unfold Claims.config Claims.rwEvents
  split <;> simp

theorem Pulsed.quiet_append_pulse {es : List PinEvent} (h : .hi .en ∉ es) : Pulsed (es ++ Claims.pulse) :=
  .append (.quiet h) .pulse

theorem pulsed_wrcmd (n : Nibble) : Pulsed (Claims.wrcmd n) :=
  .quiet_append_pulse (es := .lo .rs :: Claims.busUpd n) (by simp [hi_en_not_mem_busUpd])

theorem pulsed_wrdata (v : Byte) : Pulsed (Claims.wrdata v) :=
  .append (.quiet_append_pulse (es := .hi .rs :: Claims.busUpd (Claims.high v)) (by simp [hi_en_not_mem_busUpd]))
    (.quiet_append_pulse (hi_en_not_mem_busUpd (Claims.low v)))

theorem pulsed_cmdSeq (codes : List Nibble) (c : DelayClass) : Pulsed (Claims.cmdSeq codes c) := by
  induction codes with
  | nil => exact .quiet (by simp [Claims.cmdSeq])
  | cons n ns ih => exact .append (pulsed_wrcmd n) ih

theorem pulsed_init (p : Params) : Pulsed (Claims.init p) := by
  unfold Claims.init
  iterate 9 refine .append (pulsed_cmdSeq _ _) ?_
  exact pulsed_cmdSeq _ _

theorem pulsed_events (p : Params) (i : Instr) : Pulsed (Claims.events p i) := by
  cases i with
  | config _ => exact .quiet (hi_en_not_mem_config p)
  | init _ => exact pulsed_init p
  | wrcmd code => exact pulsed_wrcmd _
  | wrdata v => exact pulsed_wrdata v
  | clear _ | home _ | line2 _ => exact pulsed_cmdSeq _ _
  | _ => exact .quiet List.not_mem_nil

/-- An occurrence in `xs ++ ys` is one in `xs` or one in `ys`. -/
theorem split_append {xs ys as bs : List PinEvent} {e : PinEvent} (h : xs ++ ys = as ++ e :: bs) :
    (∃ cs, xs = as ++ e :: cs ∧ bs = cs ++ ys) ∨ ∃ cs, as = xs ++ cs ∧ ys = cs ++ e :: bs := by
  rcases List.append_eq_append_iff.mp h with ⟨cs, has, hys⟩ | ⟨cs, hxs, hcs⟩
  · exact .inr ⟨cs, has, hys⟩
  · rcases List.cons_eq_append_iff.mp hcs with ⟨rfl, hys⟩ | ⟨ds, rfl, hbs⟩
    · exact .inr ⟨[], by simpa using hxs.symm, hys⟩
    · exact .inl ⟨ds, hxs, hbs⟩

/-- EN is asserted at one place of a pulse. -/
theorem pulse_around_hi_en {as bs : List PinEvent} (h : Claims.pulse = as ++ .hi .en :: bs) :
    [.lo .en, .wait .pre] = as ∧ [.wait .pw, .lo .en, .wait .post] = bs := by
  have hsplit : [.lo .en, .wait .pre] ++ .hi .en :: [.wait .pw, .lo .en, .wait .post] = as ++ .hi .en :: bs := h
  obtain ⟨has, -, hbs⟩ := (List.append_cons_inj_of_notMem (by simp) (by simp)).mp hsplit
  exact ⟨has, hbs⟩

theorem Pulsed.around_hi_en {es : List PinEvent} (h : Pulsed es) {as bs : List PinEvent}
    (hes : es = as ++ .hi .en :: bs) :
    ∃ as' bs', as = as' ++ [.lo .en, .wait .pre] ∧ bs = [.wait .pw, .lo .en, .wait .post] ++ bs' := by
  induction h generalizing as bs with
  | quiet h => exact absurd (by simp [hes]) h
  | pulse =>
    obtain ⟨rfl, rfl⟩ := pulse_around_hi_en hes
    exact ⟨[], [], rfl, rfl⟩
  | @append xs ys _ _ ihx ihy =>
    rcases split_append hes with ⟨cs, hxs, rfl⟩ | ⟨cs, rfl, hys⟩
    · obtain ⟨as', bs', rfl, rfl⟩ := ihx hxs
      exact ⟨as', bs' ++ ys, rfl, by simp⟩
    · obtain ⟨as', bs', rfl, rfl⟩ := ihy hys
      exact ⟨xs ++ as', bs', by simp, rfl⟩

/-- Settles O28: every request's list is `Pulsed`. -/
theorem everyAssertionOfEnIsAPulse : Obligations.EveryAssertionOfEnIsAPulse := fun p i _ _ hes =>
  (pulsed_events p i).around_hi_en hes

theorem enableAfter_append {as : List PinEvent} (h : Claims.enableAfter as = .low) (bs : List PinEvent) :
    Claims.enableAfter (as ++ bs) = Claims.enableAfter bs := by
  unfold Claims.enableAfter at h ⊢
  rw [List.foldl_append, h]

theorem enableAfter_of_quiet {es : List PinEvent} (h : .hi .en ∉ es) : Claims.enableAfter es = .low := by
  induction es with
  | nil => rfl
  | cons e es ih =>
    rw [List.mem_cons, not_or] at h
    obtain ⟨he, hes⟩ := h
    have hlow : Claims.enableAfter [e] = .low := by simp [Claims.enableAfter, Ne.symm he]
    exact (enableAfter_append hlow es).trans (ih hes)

theorem Pulsed.enableAfter_eq_low {es : List PinEvent} (h : Pulsed es) : Claims.enableAfter es = .low := by
  induction h with
  | quiet h => exact enableAfter_of_quiet h
  | pulse => rfl
  | append _ _ ihx ihy => rw [enableAfter_append ihx, ihy]

/-- EN is low before every event that is none of a pulse's. -/
theorem Pulsed.enable_low_before {es : List PinEvent} (h : Pulsed es) {as bs : List PinEvent} {e : PinEvent}
    (he : e ∉ Claims.pulse) (hes : es = as ++ e :: bs) : Claims.enableAfter as = .low := by
  induction h generalizing as bs with
  | quiet h => exact enableAfter_of_quiet fun hmem => h (by simp [hes, hmem])
  | pulse => exact absurd (by simp [hes]) he
  | append hx _ ihx ihy =>
    rcases split_append hes with ⟨cs, hxs, -⟩ | ⟨cs, rfl, hys⟩
    · exact ihx hxs
    · rw [enableAfter_append hx.enableAfter_eq_low, ihy hys]

/-- Settles O29: a pulse drives no line but EN. -/
theorem busChangesOnlyWhileEnIsLow : Obligations.BusChangesOnlyWhileEnIsLow := by
  intro p i
  refine ⟨fun as bs l hl hes => ?_, (pulsed_events p i).enableAfter_eq_low⟩
  rcases hes with hes | hes
  · exact (pulsed_events p i).enable_low_before (by simp [Claims.pulse, hl]) hes
  · exact (pulsed_events p i).enable_low_before (by simp [Claims.pulse, hl]) hes

/-! ## The wait (R104, R180) -/

/-- Settles O35: the tick of a wait passes a cycle while two or more are left, and otherwise completes the event. -/
theorem waitCountsDown : Obligations.WaitCountsDown := by
  intro s c _ he
  obtain ⟨m, hm, hev⟩ := Option.map_eq_some_iff.mp he
  rcases Nat.lt_or_ge 1 s.dly with hd | hd
  · rw [tick_cycle hm hev hd]
    exact ⟨rfl, fun _ => ⟨rfl, rfl, rfl⟩, fun hle => absurd hd (Nat.not_lt.mpr hle)⟩
  · rw [tick_whole hm (by simp [hev]) fun _ _ => hd]
    exact ⟨by simp [hev], fun hle => absurd hd (Nat.not_le.mpr hle), fun _ => by simp [hev]⟩

end Sys2Proof.Proofs
end

section
/-! PROOFS. The protocol operations: WRCMD, WRDATA, CONFIG, INIT and DETACH, each run at an idle block (O13 to O17). -/

namespace Sys2Proof.Proofs

open Machine Laws

/-! ## The flags, the lines and DLY after a request, from its event list -/

theorem finished_viol_iff (i : Instr) (s : State) :
    (finished i s).viol = true ↔ s.viol = true ∨ Claims.breaksContract i s.phase := by
  rw [finished_viol, Bool.or_eq_true, violates_opcode_iff]

theorem finished_ill_kept {i : Instr} (h : i.isReserved = false) (s : State) : (finished i s).ill = s.ill := by
  rw [finished_ill, reservedOp_opcode, h, Bool.or_false]

theorem finished_phase_eq (i : Instr) (s : State) : (finished i s).phase = Claims.endPhase i s.phase := by
  rw [finished_phase, phaseAfter_opcode]

/-- A line that a request drives is left at its last drive, whatever it held. -/
theorem lvl_finished {i : Instr} {s : State} {l : Line} {b : Bool} (hl : l ∈ Claims.busLines)
    (hd : lastDrive l (Claims.events s.cfg.params i) = some b) :
    Observe.lvl (finished i s) l = if b then .high else .low := by
  rw [lvl_of_block (finished_cfg i s) (finished_block i s) hl, hd]
  cases b <;> rfl

/-- A request whose last drives of the data lines are those of a command write leaves that nibble on the bus. -/
theorem bus_finished {i : Instr} {s : State} {n : Nibble}
    (hd : ∀ k, lastDrive (Operands.dataLine k) (Claims.events s.cfg.params i) = wrcmdDrive n (Operands.dataLine k)) :
    Observe.bus (finished i s) = some n :=
  bus_of_block (finished_cfg i s) (finished_block i s) n (hd 0) (hd 1) (hd 2) (hd 3)

theorem dlyAfter_cmdSeq (codes : List Nibble) (c : DelayClass) (d : Nat) :
    (Claims.cmdSeq codes c).foldl (fun d e => Ops.dlyAfter e d) d = 0 := by
  rw [cmdSeq_snoc, dlyAfter_snoc_wait]

/-! ## WRCMD (R120) -/

/-- Settles O13: the list is one command write, whose frame and last drives are those of its nibble. -/
theorem wrcmdSendsOneNibble : Obligations.WrcmdSendsOneNibble := by
  intro s code hb
  have hdrive (l : Line) : lastDrive l (Claims.events s.cfg.params (.wrcmd code)) = wrcmdDrive (Claims.low code) l :=
    lastDrive_wrcmd l (Claims.low code)
  have hop : opcode (.wrcmd code) ≠ 0x1 := by simp [opcode]
  have hnib : (finished (.wrcmd code) s).nib = Claims.low code := by
    rw [finished_nib, ← cmdNib_eq]
    rfl
  have hdly : (finished (.wrcmd code) s).dly = 0 := (finished_dly _ s).trans rfl
  exact ⟨finished (.wrcmd code) s, exec_idle _ hb, finished_trace _ s, fun v => frames_wrcmd v (Claims.low code) [],
    lvl_finished (by decide) (hdrive .rs), lvl_finished (by decide) (hdrive .en), bus_finished fun k => hdrive _,
    hnib, finished_op _ s, finished_arg _ s, hdly, finished_busy _ s, finished_viol_iff _ s, finished_ill_kept rfl s,
    finished_phase_eq _ s, finished_fsel _ s hop, finished_levels _ s hop, finished_rest _ s, rfl⟩

/-! ## WRDATA (R121) -/

/-- A data write gives two data frames, high nibble first, whatever the lines held (R82, R121). -/
theorem frames_wrdata (v : LineLevels) (b : Byte) :
    Observe.framesFrom v (Claims.wrdata b) = [.frame true (Claims.high b), .frame true (Claims.low b)] := by
  have hsplit : Observe.framesFrom v (Claims.wrdata b) = Observe.framesFrom (Observe.setLine v .rs .high)
      (Claims.busUpd (Claims.high b) ++ (Claims.pulse ++ (Claims.busUpd (Claims.low b) ++ (Claims.pulse ++ [])))) := by
    simp only [Claims.wrdata, Observe.framesFrom, List.append_assoc, List.append_nil]
  rw [hsplit, frames_dataNibble _ rfl, frames_dataNibble _ rfl]
  rfl

/-- Settles O14: the list is one data write, which leaves RS high and otherwise what a command write of the low nibble
would. -/
theorem wrdataSendsTwoNibbles : Obligations.WrdataSendsTwoNibbles := by
  intro s value hb
  have hdrive (l : Line) : lastDrive l (Claims.events s.cfg.params (.wrdata value)) =
      if l = .rs then some true else wrcmdDrive (Claims.low value) l :=
    lastDrive_wrdata l value
  have hdata (k : Fin 4) : lastDrive (Operands.dataLine k) (Claims.events s.cfg.params (.wrdata value)) =
      wrcmdDrive (Claims.low value) (Operands.dataLine k) := by
    rw [hdrive, if_neg (by revert k; decide)]
  have hop : opcode (.wrdata value) ≠ 0x1 := by simp [opcode]
  have hnib : (finished (.wrdata value) s).nib = Claims.low value := by
    rw [finished_nib, ← loNib_eq]
    rfl
  have hdly : (finished (.wrdata value) s).dly = 0 := (finished_dly _ s).trans rfl
  exact ⟨finished (.wrdata value) s, exec_idle _ hb, finished_trace _ s, fun v => frames_wrdata v value,
    lvl_finished (by decide) (hdrive .rs), lvl_finished (by decide) (hdrive .en), bus_finished hdata,
    hnib, finished_op _ s, finished_arg _ s, hdly, finished_busy _ s, finished_viol_iff _ s, finished_ill_kept rfl s,
    finished_phase_eq _ s, finished_fsel _ s hop, finished_levels _ s hop, finished_rest _ s, rfl⟩

/-! ## CONFIG (R125, R126) -/

/-- CONFIG emits no enable pulse and no wait, hence no frame (R82, R125). -/
theorem frames_config (v : LineLevels) (p : Params) : Observe.framesFrom v (Claims.config p) = [] := by
  unfold Claims.config Claims.rwEvents
  split <;> rfl

theorem lastDrive_rw_config {p : Params} (h : p.bus.rw ≠ none) :
    lastDrive .rw (Claims.config p) = some p.rwWriteLevel := by
  unfold Claims.config Claims.rwEvents
  split <;> simp_all [lastDrive]

/-- CONFIG drives RW, where the line exists, to its write level (R125). -/
theorem lvl_rw_config {s : State} (arg : Byte) (h : s.cfg.params.bus.rw ≠ none) :
    Observe.lvl (finished (.config arg) s) .rw = if s.cfg.params.rwWriteLevel then .high else .low := by
  obtain ⟨p, hp⟩ := Option.ne_none_iff_exists'.mp h
  have hpin : s.cfg.pin? .rw = some p := hp
  simp only [Observe.lvl, finished_cfg, hpin, finished_block, level_applyEvents s.cfg hpin]
  rw [events_of_config rfl, lastDrive_rw_config h]
  cases s.cfg.params.rwWriteLevel <;> rfl

/-- No request but CONFIG has an event on RW (R126). -/
theorem no_rw_event {i : Instr} (h : opcode i ≠ 0x1) (p : Params) :
    ∀ e ∈ Claims.events p i, e ≠ .cfg .rw ∧ e ≠ .hi .rw ∧ e ≠ .lo .rw := by
  obtain ⟨hhi, hlo⟩ := (lastDrive_none_iff .rw _).mp (rw_not_driven p i h)
  have hcfg := cfg_not_mem_events .rw p i h
  exact fun e he => ⟨ne_of_mem_of_not_mem he hcfg, ne_of_mem_of_not_mem he hhi, ne_of_mem_of_not_mem he hlo⟩

/-- Every line of the assignment has its CFG in CONFIG's list (R125). -/
theorem mode_config {s : State} (arg : Byte) {l : Line} {p : Pin} (hp : s.cfg.pin? l = some p) :
    Ops.mode (finished (.config arg) s).block p = 1 := by
  rw [finished_block, mode_applyEvents s.cfg hp, events_of_config rfl, if_pos (cfg_mem_config hp)]

theorem endPhase_config {arg : Byte} {ph : Phase} (h : ph ≠ .detached) : Claims.endPhase (.config arg) ph = ph := by
  cases ph with
  | detached => exact absurd rfl h
  | configured => rfl
  | initialized => rfl

/-- Settles O15: every line has its CFG in the list, RW alone a drive. -/
theorem configMakesBusPinsOutputs : Obligations.ConfigMakesBusPinsOutputs := by
  intro s arg hb
  have hexec := exec_idle (.config arg) hb
  obtain ⟨-, hother⟩ := configFrame s _ arg hexec
  have hphase := finished_phase_eq (.config arg) s
  have htop (b : Fin 7) : (finished (.config arg) s).block.fsel[b].extractLsb' 30 2 =
      s.block.fsel[b].extractLsb' 30 2 := by
    rw [finished_block]
    exact top_applyEvents _ _ _ b
  refine ⟨finished (.config arg) s, hexec, finished_trace _ s, fun v => frames_config v _,
    fun l p hp => mode_config arg hp, hother, htop, finished_levels_config rfl s, lvl_rw_config arg,
    fun hrw draw => ?_, fun i hi => no_rw_event hi _, fun hd => ?_, fun hd => ?_, finished_viol_iff _ s,
    finished_ill_kept rfl s, finished_op _ s, finished_nib_kept (.inr (.inr rfl)) s,
    finished_dly_kept (.inr (.inr rfl)) s, finished_busy _ s, finished_rest _ s, rfl⟩
  · rw [seen_tied draw (by rwa [finished_cfg]), finished_cfg]
  · rw [hphase, hd]
    rfl
  · rw [hphase, endPhase_config hd]

/-! ## INIT (R127) -/

/-- The frames of a list that begins with a CMDSEQ, the frames of what follows it not depending on the lines. -/
theorem frames_cmdSeq_append {codes : List Nibble} {c : DelayClass} {es : List PinEvent} {fs : List FrameItem}
    (hc : Observe.longWait c = true) (h : ∀ v, Observe.framesFrom v es = fs) (v : LineLevels) :
    Observe.framesFrom v (Claims.cmdSeq codes c ++ es) = Claims.cmdFrames codes c ++ fs := by
  obtain ⟨v', hv⟩ := frames_cmdSeq v codes c hc es
  rw [hv, h v']

theorem frames_cmdSeq_alone {codes : List Nibble} {c : DelayClass} (hc : Observe.longWait c = true) (v : LineLevels) :
    Observe.framesFrom v (Claims.cmdSeq codes c) = Claims.cmdFrames codes c := by
  simpa using frames_cmdSeq_append hc (es := []) (fun _ => rfl) v

/-- INIT's last command has a nibble (R8). -/
theorem exists_line1_getLast (c : Config) : ∃ n, c.params.line1.getLast? = some n := by
  obtain ⟨-, -, -, hlen⟩ := config_lists c
  refine ⟨_, List.getLast?_eq_some_getLast fun hnil => ?_⟩
  simp [hnil] at hlen

theorem endPhase_init {arg : Byte} {ph : Phase} (h : ph ≠ .detached) :
    Claims.endPhase (.init arg) ph = .initialized := by
  cases ph with
  | detached => exact absurd rfl h
  | configured => rfl
  | initialized => rfl

/-- Settles O16: the frames of each CMDSEQ in turn, and the lines as the last command nibble leaves them. -/
theorem initRunsTheHandshake : Obligations.InitRunsTheHandshake := by
  intro s arg hb
  obtain ⟨n, hn⟩ := exists_line1_getLast s.cfg
  have hdrive (l : Line) : lastDrive l (Claims.events s.cfg.params (.init arg)) = wrcmdDrive n l :=
    lastDrive_init l _ n hn
  have hop : opcode (.init arg) ≠ 0x1 := by simp [opcode]
  have hbus : Observe.bus (finished (.init arg) s) = some n := bus_finished fun k => hdrive _
  have hdly : (finished (.init arg) s).dly = 0 := by
    rw [finished_dly]
    simp only [Claims.events, Claims.init, List.foldl_append, dlyAfter_cmdSeq]
  have hphase := finished_phase_eq (.init arg) s
  refine ⟨finished (.init arg) s, exec_idle _ hb, ?_, ?_, lvl_finished (by decide) (hdrive .rs),
    lvl_finished (by decide) (hdrive .en), hbus.trans hn.symm, finished_op _ s, hdly, finished_busy _ s, fun hd => ?_,
    fun hd => ?_, finished_viol_iff _ s, finished_ill_kept rfl s, finished_fsel _ s hop,
    finished_levels _ s hop, finished_rest _ s, rfl⟩
  · simp only [finished_trace, Claims.events, Claims.init, List.append_assoc]
  · simp only [Claims.init, List.append_assoc]
    iterate 9 refine frames_cmdSeq_append rfl ?_
    exact frames_cmdSeq_alone rfl
  · rw [hphase, endPhase_init hd]
  · rw [hphase, hd]
    rfl

/-! ## DETACH (R129) -/

/-- Settles O17: the list is empty, so only acceptance and completion write anything. -/
theorem detachEmitsNothing : Obligations.DetachEmitsNothing := by
  intro s arg hb
  have htrace : (finished (.detach arg) s).trace = s.trace := by
    rw [finished_trace, events_eq_nil (.inr rfl), List.append_nil]
  have hblock : (finished (.detach arg) s).block = s.block := by
    rw [finished_block, events_eq_nil (.inr rfl), applyEvents_nil]
  exact ⟨finished (.detach arg) s, exec_idle _ hb, finished_phase_eq _ s, htrace, hblock, finished_viol_iff _ s,
    finished_ill_kept rfl s, finished_op _ s, finished_nib_kept (.inr (.inl rfl)) s,
    finished_dly_kept (.inr (.inl rfl)) s, finished_busy _ s, finished_rest _ s, rfl⟩

end Sys2Proof.Proofs
end

section
/-! PROOFS. The display operations: CLEAR, HOME and LINE2, each run at an idle block (O18 to O20). Each one's list is one
CMDSEQ, so what a request with such a list does is proved once. -/

namespace Sys2Proof.Proofs

open Machine Laws

/-! ## A request whose list is one CMDSEQ (R123) -/

theorem nibAfter_cmdSeq (codes : List Nibble) (c : DelayClass) (nib : Nibble) :
    (Operands.cmdSeq codes c).foldl Operands.nibAfter nib = codes.getLastD nib := by
  induction codes generalizing nib with
  | nil => rfl
  | cons m ms ih => exact (ih m).trans List.getLastD_cons.symm

section OneCmdSeq

variable {i : Instr} {s : State} {codes : List Nibble} {c : DelayClass} {n : Nibble}
  (hlist : Clock.program s.cfg.params (opcode i) i.arg = Operands.cmdSeq codes c) (hlast : codes.getLast? = some n)

include hlist

/-- The request's pin events are those of the CMDSEQ. -/
theorem events_of_cmdSeq : Claims.events s.cfg.params i = Claims.cmdSeq codes c := by
  rw [← events_program s.nib, hlist, events_cmdSeq_last]

/-- The CMDSEQ's wait is the last event, and leaves DLY 0 (R180). -/
theorem finished_dly_of_cmdSeq : (finished i s).dly = 0 := by
  rw [finished_dly, events_of_cmdSeq hlist, dlyAfter_cmdSeq]

include hlast

/-- The request leaves the drives of its last command nibble standing. -/
theorem lastDrive_of_cmdSeq (l : Line) : lastDrive l (Claims.events s.cfg.params i) = wrcmdDrive n l := by
  rw [events_of_cmdSeq hlist, lastDrive_cmdSeq, hlast, Option.bind_some]

/-- NIB holds the last command nibble (R12). -/
theorem finished_nib_of_cmdSeq : (finished i s).nib = n := by
  rw [finished_nib, hlist, nibAfter_cmdSeq, List.getLastD_eq_getLast?, hlast, Option.getD_some]

/-- What a request does at an idle block when its list is one CMDSEQ of the codes, the last of them `n`: the events and the
frames of the CMDSEQ, and the lines and NIB as the command write of `n` leaves them. -/
theorem exec_of_cmdSeq (hb : s.busy = false) (hwait : Observe.longWait c = true) (hop : opcode i ≠ 0x1)
    (hres : i.isReserved = false) :
    ∃ t, exec i s = .next t ∧ t.trace = s.trace ++ Claims.cmdSeq codes c ∧
      (∀ v, Observe.framesFrom v (Claims.cmdSeq codes c) = Claims.cmdFrames codes c) ∧
      Observe.lvl t .rs = .low ∧ Observe.lvl t .en = .low ∧ Observe.bus t = some n ∧
      t.op = opcode i ∧ t.nib = n ∧ t.dly = 0 ∧ t.busy = false ∧
      (t.viol = true ↔ s.viol = true ∨ Claims.breaksContract i s.phase) ∧ t.ill = s.ill ∧
      t.phase = Claims.endPhase i s.phase ∧
      t.block.fsel = s.block.fsel ∧ Claims.levelsKeptBut Claims.busLines s t ∧ Claims.restKept s t ∧
      encode i = opcode i ++ i.arg := by
  have htrace : (finished i s).trace = s.trace ++ Claims.cmdSeq codes c := by
    rw [finished_trace, events_of_cmdSeq hlist]
  have hdrive := lastDrive_of_cmdSeq hlist hlast
  exact ⟨finished i s, exec_idle i hb, htrace, frames_cmdSeq_alone hwait,
    lvl_finished (by decide) (hdrive .rs), lvl_finished (by decide) (hdrive .en), bus_finished fun k => hdrive _,
    finished_op i s, finished_nib_of_cmdSeq hlist hlast, finished_dly_of_cmdSeq hlist, finished_busy i s,
    finished_viol_iff i s, finished_ill_kept hres s, finished_phase_eq i s, finished_fsel i s hop,
    finished_levels i s hop, finished_rest i s, rfl⟩

end OneCmdSeq

/-! ## CLEAR, HOME and LINE2 (R140 to R142) -/

/-- Settles O18: CLEAR's list is the CMDSEQ of `C_CLEAR`. -/
theorem clearSendsZeroOne : Obligations.ClearSendsZeroOne := by
  intro s arg hb
  have hlist : Clock.program s.cfg.params (opcode (.clear arg)) arg = Operands.cmdSeq Operands.cClear .clear := rfl
  exact exec_of_cmdSeq (i := .clear arg) hlist rfl hb rfl (by simp [opcode]) rfl

/-- Settles O19: HOME's list is the CMDSEQ of `C_HOME`, with the shorter wait. -/
theorem homeSendsZeroTwo : Obligations.HomeSendsZeroTwo := by
  intro s arg hb
  have hlist : Clock.program s.cfg.params (opcode (.home arg)) arg = Operands.cmdSeq Operands.cHome .cmd := rfl
  exact exec_of_cmdSeq (i := .home arg) hlist rfl hb rfl (by simp [opcode]) rfl

/-- Settles O20: LINE2's list is the CMDSEQ of `C_LINE2`, the source's literal. -/
theorem line2SendsZeroTwelve : Obligations.Line2SendsZeroTwelve := by
  intro s arg hb
  have hlist : Clock.program s.cfg.params (opcode (.line2 arg)) arg = Operands.cmdSeq Operands.cLine2 .cmd := rfl
  exact exec_of_cmdSeq (i := .line2 arg) hlist rfl hb rfl (by simp [opcode]) rfl

end Sys2Proof.Proofs
end

section
/-! PROOFS. The step as the move at its head has it, and a host that keeps the duties of R156 (O47). -/

namespace Sys2Proof.Proofs

open Machine Laws

/-! ## The answer of a step -/

/-- What a step answers, the outside's action being known: `step` after `HostLayer.arbitrate`. -/
def answer : HostAction → Host.Outcome State Fault Refusal
  | .settled o => o
  | .present w s =>
    match s.pace with
    | .whole => exec (decodeWord w) s
    | .clocked => .next (Clock.accept (decodeWord w) s)

theorem step_eq_answer (s : State) : step s = answer (HostLayer.arbitrate s) := rfl

/-- With `rst` low the move at the head is made, unless it waits for a busy block. -/
theorem step_act {s : State} {m : HostMove} {rest : List HostMove} (hr : s.rstIn ≠ some 0)
    (hp : s.pending = m :: rest) (hidle : HostLayer.waitsForIdle m = true → s.busy = false) :
    step s = answer (HostLayer.act m (moved s rest)) := by
  have hp' : (timed s).pending = m :: rest := hp
  have hgo : ((timed s).busy && HostLayer.waitsForIdle m) = false := by
    cases hw : HostLayer.waitsForIdle m with
    | false => exact Bool.and_false _
    | true => exact (Bool.and_true _).trans (hidle hw)
  rw [step_eq_answer, arbitrate_eq s hr, HostLayer.unreset]
  simp only [hp', hgo, Bool.false_eq_true, if_false]
  rfl

/-- With nothing pending and `rst` low the block is left to itself. -/
theorem step_nothing_pending {s : State} (hr : s.rstIn ≠ some 0) (hp : s.pending = []) :
    step s = .next (Clock.edge (timed s)) := by
  have hp' : (timed s).pending = [] := hp
  rw [step_eq_answer, arbitrate_eq s hr, HostLayer.unreset]
  simp only [hp', answer]

/-! ## The contract through each thing a step can do -/

/-- The step goes on, and the contract is kept in the state it answers. -/
def GoesOnKept (o : Host.Outcome State Fault Refusal) : Prop := ∃ t, o = .next t ∧ Claims.contractKept t

section Contract

variable {s : State} (hk : Claims.contractKept s)
include hk

/-- A tick sets no flag (R17, R18). -/
theorem contractKept_tick : Claims.contractKept (Clock.tick s) := by
  obtain ⟨-, hill, hviol, -, htrespass, -⟩ := tick_frame s
  rwa [Claims.contractKept, hill, hviol, htrespass]

theorem contractKept_edge : Claims.contractKept (Clock.edge s) := by
  unfold Clock.edge
  split
  · exact contractKept_tick hk
  · exact hk

/-- Acceptance of a request in phase and with no reserved code sets neither flag (R74, R173). -/
theorem contractKept_acceptance {i : Instr} (hphase : ¬Claims.breaksContract i s.phase)
    (hcode : i.isReserved = false) : Claims.contractKept (Ops.accept (opcode i) i.arg s) := by
  obtain ⟨hviol, hill, htrespass⟩ := hk
  refine ⟨?_, ?_, htrespass⟩
  · rwa [accept_viol, hviol, Bool.false_or, ← Bool.not_eq_true, violates_opcode_iff]
  · rwa [accept_ill, hill, Bool.false_or, reservedOp_opcode]

/-- A request a dutiful host presents to an idle block, at either grain. -/
theorem present_goesOnKept {w : Request} (hb : s.busy = false)
    (hphase : ¬Claims.breaksContract (decodeWord w) s.phase) (hcode : (decodeWord w).isReserved = false) :
    GoesOnKept (answer (.present w s)) := by
  have haccept := contractKept_acceptance hk hphase hcode
  rw [answer]
  cases s.pace with
  | whole => exact ⟨_, exec_idle _ hb, by simpa [Claims.contractKept, finished] using haccept⟩
  | clocked =>
    refine ⟨_, rfl, ?_⟩
    simpa [Claims.contractKept, Clock.accept, hb, Clock.proceed] using haccept

/-- Every move the table of R156 allows is made, and keeps the contract. -/
theorem act_goesOnKept {m : HostMove} (hd : Claims.duty s m)
    (hidle : HostLayer.waitsForIdle m = true → s.busy = false) : GoesOnKept (answer (HostLayer.act m s)) := by
  cases m with
  | request w =>
    obtain ⟨hphase, hcode, -⟩ := hd
    exact present_goesOnKept hk (hidle rfl) hphase hcode
  | feed ws len =>
    cases ws with
    | nil => exact ⟨_, rfl, hk⟩
    | cons w ws =>
      obtain ⟨hphase, hcode⟩ := hd
      exact present_goesOnKept (s := { s with pending := .feed ws len :: s.pending }) hk (hidle rfl) hphase hcode
  | clock => exact ⟨_, rfl, contractKept_edge hk⟩
  | openStream =>
    refine ⟨_, rfl, ?_⟩
    unfold HostLayer.openStream
    split
    · exact hk
    · exact hk
  | readStream n => exact ⟨_, if_pos hd, hk⟩
  | writeStream bytes => exact ⟨_, if_pos hd, hk⟩
  | agentRead a =>
    obtain ⟨b, rfl⟩ := hd
    refine ⟨HostLayer.giveBack (.word s.block.fsel[b]) s, ?_, hk⟩
    rw [HostLayer.act, HostLayer.agentRead, locate_fselAddr, answer]
  | agentWrite a v =>
    obtain ⟨r, rfl⟩ := hd.1
    refine ⟨_, by rw [HostLayer.act, HostLayer.agentWrite, locate_addrOf, answer], ?_⟩
    obtain ⟨hviol, hill, htrespass⟩ := hk
    exact ⟨hviol, hill, by rw [htrespass, Bool.false_or, breaksDuty_eq_false_iff]; exact hd⟩
  | readStatus | closeStream | assertReset _ | setPace _ => exact ⟨_, rfl, hk⟩

end Contract

/-- Settles O47: a reset clears the flags, a block that is busy or left alone sets none, and a move that is made keeps its
duty. -/
theorem dutifulHostKeepsTheContract : Obligations.DutifulHostKeepsTheContract := by
  intro s hk hd
  by_cases hr : s.rstIn = some 0
  · exact ⟨_, step_reset hr, rfl, rfl, rfl⟩
  have htimed : Claims.contractKept (timed s) := hk
  cases hp : s.pending with
  | nil => exact ⟨_, step_nothing_pending hr hp, contractKept_edge htimed⟩
  | cons m rest =>
    by_cases hwait : s.busy = true ∧ HostLayer.waitsForIdle m = true
    · obtain ⟨hb, hw⟩ := hwait
      exact ⟨_, step_busy hb hr (.inr ⟨m, rest, hp, hw⟩), contractKept_tick htimed⟩
    · have hidle : HostLayer.waitsForIdle m = true → s.busy = false := fun hw =>
        Bool.eq_false_iff.mpr fun hb => hwait ⟨hb, hw⟩
      rw [step_act hr hp hidle]
      exact act_goesOnKept (s := moved s rest) hk (hd m rest hp) hidle

end Sys2Proof.Proofs
end

section
/-! PROOFS. The stream of the host layer: OPEN, CLOSE and READ (O52 to O54), WRITE's operations, their least duration and
its run (O55 to O57), and the refusal of an unopened stream (O58). -/

namespace Sys2Proof.Proofs

open Machine Laws

/-! ## OPEN, CLOSE and READ (R150 to R152, R155) -/

/-- With the block idle and no reset on its way the move at the head is made. -/
theorem step_idle {s : State} {m : HostMove} {rest : List HostMove} (hb : s.busy = false) (hr : s.rstIn = none)
    (hp : s.pending = m :: rest) : step s = answer (HostLayer.act m { s with pending := rest }) := by
  rw [step_act (by simp [hr]) hp fun _ => hb, moved, timed_none hr]

/-- Settles O52: OPEN tests the guard and nothing else. -/
theorem openRejectsSecond : Obligations.OpenRejectsSecond := by
  intro s rest hb hr hp
  rw [step_idle hb hr hp, HostLayer.act, HostLayer.openStream, answer]
  exact ⟨fun hg => congrArg _ (if_pos hg), fun hg => congrArg _ (if_neg (by simp [hg]))⟩

/-- Settles O53: CLOSE does not look at the guard it releases. -/
theorem closeReleasesTheGuard : Obligations.CloseReleasesTheGuard := fun _ _ hb hr hp => step_idle hb hr hp

/-- Settles O58: READ and WRITE test the guard first. -/
theorem unopenedStreamRefused : Obligations.UnopenedStreamRefused := by
  intro s n bytes rest hb hr hg
  have hclosed : ¬s.openGuard = true := by simp [hg]
  refine ⟨fun hp => ?_, fun hp => ?_⟩
  · rw [step_idle hb hr hp]
    exact if_neg hclosed
  · rw [step_idle hb hr hp]
    exact if_neg hclosed

/-- The bytes a READ serves (R152). -/
def served (n : Nat) (s : State) : List Byte :=
  (s.cfg.params.msg.drop s.readCursor).take (HostLayer.readCount n s)

theorem length_served (n : Nat) (s : State) : (served n s).length = HostLayer.readCount n s := by
  rw [served, List.length_take, List.length_drop, HostLayer.readCount]
  omega

theorem step_readStream {s : State} {n : Nat} {rest : List HostMove} (hb : s.busy = false) (hr : s.rstIn = none)
    (hg : s.openGuard = true) (hp : s.pending = .readStream n :: rest) :
    step s = .next { s with pending := rest, readCursor := s.readCursor + (served n s).length,
                            results := s.results ++ [.bytes (served n s)] } := by
  rw [step_idle hb hr hp, length_served]
  exact if_pos hg

/-- Settles O54: what is served is the message from the cursor on, cut at the count of R152. -/
theorem readServesTheMessage : Obligations.ReadServesTheMessage := by
  intro s n rest hb hr hg _ hp
  refine ⟨served n s, step_readStream hb hr hg hp, length_served n s, fun i hi => ?_, fun hend => ?_⟩
  · rw [length_served] at hi
    rw [served, List.getElem?_take_of_lt hi, List.getElem?_drop]
  · rw [served, hend, List.drop_length, List.take_nil]

/-! ## The operations of a WRITE (R153, R154) -/

theorem effectiveLength_of_le_one {n : Nat} (h : n ≤ 1) : HostLayer.effectiveLength n = 0 := if_pos h

theorem effectiveLength_of_two_le {n : Nat} (h : 2 ≤ n) : HostLayer.effectiveLength n = min 32 n - 1 :=
  if_neg (by omega)

theorem effectiveLength_le (n : Nat) : HostLayer.effectiveLength n ≤ n ∧ HostLayer.effectiveLength n ≤ 31 := by
  rcases Nat.lt_or_ge n 2 with h | h
  · rw [effectiveLength_of_le_one (by omega)]
    omega
  · rw [effectiveLength_of_two_le h]
    omega

theorem writeFrom_append (i : Nat) (as bs : List Byte) :
    HostLayer.writeFrom i (as ++ bs) = HostLayer.writeFrom i as ++ HostLayer.writeFrom (i + as.length) bs := by
  induction as generalizing i with
  | nil => rfl
  | cons a as ih =>
    rw [List.cons_append, HostLayer.writeFrom, ih, HostLayer.writeFrom, List.length_cons,
      Nat.add_right_comm i 1, ← Nat.add_assoc, List.append_assoc, List.cons_append]

/-- Away from index 16 the loop of R153 presents the bytes and nothing else. -/
theorem writeFrom_inside_row {i : Nat} {bs : List Byte} (h : i + bs.length ≤ 16 ∨ 16 < i) :
    HostLayer.writeFrom i bs = bs.map Instr.wrdata := by
  induction bs generalizing i with
  | nil => rfl
  | cons b bs ih =>
    rw [List.length_cons] at h
    have hi : i ≠ HostLayer.rowLen := by
      unfold HostLayer.rowLen
      omega
    rw [HostLayer.writeFrom, if_neg hi, ih (by omega), List.nil_append, List.map_cons]

/-- At index 16 the loop presents LINE2 before the byte, if there is one. -/
theorem writeFrom_second_row {bs : List Byte} (h : bs ≠ []) :
    HostLayer.writeFrom 16 bs = .line2 0 :: bs.map Instr.wrdata := by
  cases bs with
  | nil => exact absurd rfl h
  | cons b bs =>
    rw [HostLayer.writeFrom, writeFrom_inside_row (.inr (by decide))]
    rfl

/-- A WRITE within the first row. -/
theorem writeOps_one_row {bytes : List Byte} (h : HostLayer.effectiveLength bytes.length ≤ 16) :
    HostLayer.writeOps bytes = (bytes.take (HostLayer.effectiveLength bytes.length)).map Instr.wrdata := by
  obtain ⟨hlen, -⟩ := effectiveLength_le bytes.length
  exact writeFrom_inside_row (.inl (by rw [List.length_take]; omega))

/-- A WRITE that goes on in the second row. -/
theorem writeOps_two_rows {bytes : List Byte} (h : 17 ≤ HostLayer.effectiveLength bytes.length) :
    HostLayer.writeOps bytes = (bytes.take 16).map Instr.wrdata ++ [.line2 0] ++
      ((bytes.take (HostLayer.effectiveLength bytes.length)).drop 16).map Instr.wrdata := by
  obtain ⟨hlen, -⟩ := effectiveLength_le bytes.length
  have hfirst : (bytes.take 16).length = 16 := by
    rw [List.length_take]
    omega
  have hsecond : (bytes.take (HostLayer.effectiveLength bytes.length)).drop 16 ≠ [] := by
    rw [Ne, List.drop_eq_nil_iff, List.length_take]
    omega
  have hrows : bytes.take 16 ++ (bytes.take (HostLayer.effectiveLength bytes.length)).drop 16 =
      bytes.take (HostLayer.effectiveLength bytes.length) := by
    have htake := List.take_append_drop 16 (bytes.take (HostLayer.effectiveLength bytes.length))
    rwa [List.take_take, Nat.min_eq_left (by omega)] at htake
  calc HostLayer.writeOps bytes
      = HostLayer.writeFrom 0 (bytes.take 16 ++ (bytes.take (HostLayer.effectiveLength bytes.length)).drop 16) :=
        congrArg (HostLayer.writeFrom 0) hrows.symm
    _ = (bytes.take 16).map Instr.wrdata ++ [.line2 0] ++
          ((bytes.take (HostLayer.effectiveLength bytes.length)).drop 16).map Instr.wrdata := by
        rw [writeFrom_append, hfirst, writeFrom_inside_row (.inl (by omega)), writeFrom_second_row hsecond,
          List.append_assoc, List.singleton_append]

/-- Settles O55: the loop of R153 meets index 16 or it does not. -/
theorem writeOperations : Obligations.WriteOperations := by
  intro bytes
  refine ⟨fun h => ?_, fun h hrow => ?_, fun h hrow => ?_⟩
  · have heff := effectiveLength_of_le_one h
    rw [writeOps_one_row (by omega), heff]
    rfl
  · have heff := effectiveLength_of_two_le h
    rw [writeOps_one_row (by omega), heff]
  · have heff := effectiveLength_of_two_le h
    rw [writeOps_two_rows (by omega), heff]

/-! ## The least duration and the pulses of a WRITE (R154, R210) -/

theorem leastTime_append (p : Params) (as bs : List PinEvent) :
    Observe.leastTime p (as ++ bs) = Observe.leastTime p as + Observe.leastTime p bs := by
  induction as with
  | nil => exact (Nat.zero_add _).symm
  | cons e as ih => cases e <;> simp [Observe.leastTime, ih, Nat.add_assoc]

theorem leastTime_drive (p : Params) (b : Bool) (l : Line) (es : List PinEvent) :
    Observe.leastTime p (Claims.drive b l :: es) = Observe.leastTime p es := by
  cases b <;> rfl

theorem leastTime_busUpd (p : Params) (n : Nibble) : Observe.leastTime p (Claims.busUpd n) = 0 := by
  simp [Claims.busUpd, leastTime_drive, Observe.leastTime]

theorem leastTime_pulse (p : Params) : Observe.leastTime p Claims.pulse = Claims.pulseTime p := by
  simp [Claims.pulse, Observe.leastTime, Claims.pulseTime, Delays.of, Nat.add_assoc]

theorem leastTime_wrcmd (p : Params) (n : Nibble) : Observe.leastTime p (Claims.wrcmd n) = Claims.pulseTime p := by
  simp [Claims.wrcmd, Observe.leastTime, leastTime_append, leastTime_busUpd, leastTime_pulse]

theorem leastTime_wrdata (p : Params) (v : Byte) : Observe.leastTime p (Claims.wrdata v) = 2 * Claims.pulseTime p := by
  simp [Claims.wrdata, Observe.leastTime, leastTime_append, leastTime_busUpd, leastTime_pulse, Nat.two_mul]

/-- A CMDSEQ waits out the pulses of its nibbles and then its own class (R123, R210). -/
theorem leastTime_cmdSeq (p : Params) (codes : List Nibble) (c : DelayClass) :
    Observe.leastTime p (Claims.cmdSeq codes c) = codes.length * Claims.pulseTime p + p.minTime.of c := by
  induction codes with
  | nil => simp [Claims.cmdSeq, Observe.leastTime]
  | cons n ns ih =>
    rw [Claims.cmdSeq, leastTime_append, leastTime_wrcmd, ih, List.length_cons, Nat.succ_mul]
    omega

/-- No bus update asserts EN (R105). -/
theorem count_hi_en_busUpd (n : Nibble) : (Claims.busUpd n).count (.hi .en) = 0 :=
  List.count_eq_zero.mpr (hi_en_not_mem_busUpd n)

/-- A pulse asserts EN once (R106). -/
theorem count_hi_en_pulse : Claims.pulse.count (.hi .en) = 1 := rfl

theorem count_hi_en_wrdata (v : Byte) : (Claims.wrdata v).count (.hi .en) = 2 := by
  simp [Claims.wrdata, count_hi_en_busUpd, count_hi_en_pulse]

section Additive

/-! A measure of event lists that adds up over them, worth `a` on a WRDATA and `b` on a LINE2. -/

variable {f : List PinEvent → Nat} {p : Params} {a b : Nat} (hadd : ∀ as bs, f (as ++ bs) = f as + f bs)
  (hdata : ∀ v, f (Claims.wrdata v) = a)
include hadd hdata

theorem measure_wrdatas (bs : List Byte) : f ((bs.map Instr.wrdata).flatMap (Claims.events p)) = bs.length * a := by
  induction bs with
  | nil =>
    have hnil := hadd [] []
    rw [List.append_nil] at hnil
    simpa using hnil
  | cons b bs ih =>
    rw [List.map_cons, List.flatMap_cons, hadd, ih, Claims.events, hdata, List.length_cons, Nat.succ_mul, Nat.add_comm]

theorem measure_writeOps (hline2 : f (Claims.events p (.line2 0)) = b) (bytes : List Byte) :
    f ((HostLayer.writeOps bytes).flatMap (Claims.events p)) =
      HostLayer.effectiveLength bytes.length * a + (if 17 ≤ HostLayer.effectiveLength bytes.length then b else 0) := by
  obtain ⟨hlen, -⟩ := effectiveLength_le bytes.length
  have htake : (bytes.take (HostLayer.effectiveLength bytes.length)).length =
      HostLayer.effectiveLength bytes.length := List.length_take_of_le hlen
  by_cases hrows : 17 ≤ HostLayer.effectiveLength bytes.length
  · have hfirst : (bytes.take 16).length = 16 := List.length_take_of_le (by omega)
    have hbytes : HostLayer.effectiveLength bytes.length * a =
        16 * a + (HostLayer.effectiveLength bytes.length - 16) * a := by
      rw [← Nat.add_mul, Nat.add_sub_cancel' (by omega)]
    rw [writeOps_two_rows hrows, List.flatMap_append, List.flatMap_append, hadd, hadd, List.flatMap_singleton, hline2,
      measure_wrdatas hadd hdata, measure_wrdatas hadd hdata, hfirst, List.length_drop, htake, if_pos hrows]
    omega
  · rw [writeOps_one_row (by omega), measure_wrdatas hadd hdata, htake, if_neg hrows, Nat.add_zero]

end Additive

/-- Settles O56: the least time and the pulses add up over the operations of O55. -/
theorem writeLeastDuration : Obligations.WriteLeastDuration := by
  intro p bytes eff heff
  have hlen : HostLayer.effectiveLength bytes.length = eff := heff.symm
  obtain ⟨-, hle⟩ := effectiveLength_le bytes.length
  have htime := measure_writeOps (p := p) (leastTime_append p) (leastTime_wrdata p)
    (leastTime_cmdSeq p [0x0, 0xC] .cmd) bytes
  have hpulses := measure_writeOps (p := p) (fun _ _ => List.count_append) count_hi_en_wrdata (b := 2) rfl bytes
  rw [hlen] at hle htime hpulses
  refine ⟨hlen, hle, ?_, ?_⟩
  · rw [htime, Nat.mul_left_comm, ← Nat.mul_assoc]
    rfl
  · rw [hpulses, Nat.mul_comm]

/-! ## The run of a WRITE (R153, R157) -/

theorem run_succ {s t : State} (h : step s = .next t) (k : Nat) : core.run (k + 1) s = core.run k t := by
  have h' : core.step s = .next t := h
  simp only [Host.Core.run, h']

/-- The loop of R153 presents WRDATA and LINE2 alone. -/
theorem mem_writeFrom {n : Nat} {bs : List Byte} {i : Instr} (h : i ∈ HostLayer.writeFrom n bs) :
    (∃ v, i = .wrdata v) ∨ i = .line2 0 := by
  induction bs generalizing n with
  | nil => exact absurd h List.not_mem_nil
  | cons b bs ih =>
    rw [HostLayer.writeFrom, List.mem_append, List.mem_cons] at h
    rcases h with h | h | h
    · split at h
      · exact .inr (List.mem_singleton.mp h)
      · exact absurd h List.not_mem_nil
    · exact .inl ⟨b, h⟩
    · exact ih h

/-- The operations of a WRITE leave PHASE as it is (R16). -/
theorem endPhase_writeOps {bytes : List Byte} {i : Instr} (h : i ∈ HostLayer.writeOps bytes) (ph : Phase) :
    Claims.endPhase i ph = ph := by
  rcases mem_writeFrom h with ⟨v, rfl⟩ | rfl
  · rfl
  · rfl

/-- What a host that has fed the operations `is` to the block, and has been told the length `len`, finds in `t`: their
events in TRACE, and but for them what `s` had. -/
structure FedTo (is : List Instr) (len : Nat) (rest : List HostMove) (s t : State) : Prop where
  trace : t.trace = s.trace ++ is.flatMap (Claims.events s.cfg.params)
  results : t.results = s.results ++ [.wrote len]
  pending : t.pending = rest
  busy : t.busy = false
  openGuard : t.openGuard = s.openGuard
  readCursor : t.readCursor = s.readCursor
  phase : t.phase = s.phase

/-- The block takes the operation at the head of a WRITE in progress whole. -/
theorem step_feed {s : State} {i : Instr} {ws : List Request} {len : Nat} {rest : List HostMove} (hb : s.busy = false)
    (hr : s.rstIn = none) (hpace : s.pace = .whole) (hp : s.pending = .feed (encode i :: ws) len :: rest) :
    step s = .next (finished i { s with pending := .feed ws len :: rest }) := by
  rw [step_idle hb hr hp, HostLayer.act, answer]
  simp only [hpace]
  rw [decodeWord_encode]
  exact exec_idle i hb

/-- A WRITE in progress runs to its end: one step for each operation, and one that reports the length. -/
theorem run_feed {is : List Instr} (hkeep : ∀ i ∈ is, ∀ ph, Claims.endPhase i ph = ph) {s : State} {len : Nat}
    {rest : List HostMove} (hb : s.busy = false) (hr : s.rstIn = none) (hpace : s.pace = .whole)
    (hp : s.pending = .feed (is.map encode) len :: rest) :
    ∃ t, core.run (is.length + 1) s = .next t ∧ FedTo is len rest s t := by
  induction is generalizing s with
  | nil =>
    refine ⟨_, run_succ (step_idle hb hr hp) 0, ?_⟩
    exact ⟨(List.append_nil _).symm, rfl, rfl, hb, rfl, rfl, rfl⟩
  | cons i is ih =>
    have hstep := step_feed hb hr hpace hp
    obtain ⟨hcfg, -, -, hguard, hcursor, -, hresults, hpending, hrst, hpace'⟩ :=
      finished_rest i { s with pending := .feed (is.map encode) len :: rest }
    obtain ⟨t, hrun, h⟩ := ih (fun j hj => hkeep j (List.mem_cons_of_mem i hj)) (finished_busy i _) (hrst.trans hr)
      (hpace'.trans hpace) hpending
    refine ⟨t, (run_succ hstep _).trans hrun, ?_, ?_, h.pending, h.busy, h.openGuard.trans hguard,
      h.readCursor.trans hcursor, ?_⟩
    · rw [h.trace, finished_trace, finished_cfg, List.append_assoc, List.flatMap_cons]
    · rw [h.results, hresults]
    · rw [h.phase, finished_phase_eq]
      exact hkeep i List.mem_cons_self s.phase

/-- Settles O57: the first step puts the operations of the WRITE at the port, and `run_feed` runs them. -/
theorem writeRunsToItsEnd : Obligations.WriteRunsToItsEnd := by
  intro s bytes rest hb hr hpace hg hp
  have hstep : step s = .next { s with
      pending := .feed ((HostLayer.writeOps bytes).map encode) bytes.length :: rest } := by
    rw [step_idle hb hr hp]
    exact if_pos hg
  obtain ⟨t, hrun, h⟩ := run_feed (fun i hi => endPhase_writeOps hi)
    (s := { s with pending := .feed ((HostLayer.writeOps bytes).map encode) bytes.length :: rest }) hb hr hpace rfl
  exact ⟨t, (run_succ hstep _).trans hrun, h.trace, h.results, h.pending, h.busy, h.openGuard.trans hg, h.readCursor,
    h.phase⟩

end Sys2Proof.Proofs
end

section
/-! PROOFS. What a request does to the flags, whatever its code (O21 to O23), the ranges of DLY, UPC and the read cursor
(O44), and the moves of the outside that a step refuses (O51). -/

namespace Sys2Proof.Proofs

open Machine Laws

/-! ## The flags of a request (R17, R18, R74, R173) -/

/-- The phase check lets every reserved code pass (R173). -/
theorem finished_viol_of_reserved {i : Instr} (h : i.isReserved = true) (s : State) :
    (finished i s).viol = s.viol := by
  rw [finished_viol, Flags.violates, reservedOp_opcode, if_pos h, Bool.or_false]

/-- No reserved code has an effect on PHASE (R74). -/
theorem finished_phase_of_reserved {i : Instr} (h : i.isReserved = true) (s : State) :
    (finished i s).phase = s.phase := by
  rw [finished_phase_eq]
  cases i <;> simp [Instr.isReserved] at h <;> rfl

theorem isReserved_of_mem {arg : Byte} {i : Instr}
    (h : i ∈ [Instr.reserved0 arg, .reserved9 arg, .reservedA arg, .reservedB arg, .reservedC arg, .reservedD arg,
      .reservedE arg, .reservedF arg]) : i.isReserved = true := by
  simp only [List.mem_cons, List.not_mem_nil, or_false] at h
  rcases h with rfl | rfl | rfl | rfl | rfl | rfl | rfl | rfl <;> rfl

/-- Settles O21: a reserved code has the empty list, so acceptance writes ILL and completion frees the block. -/
theorem reservedCodesOnlySetIll : Obligations.ReservedCodesOnlySetIll := by
  intro s arg i hb hi
  have hres := isReserved_of_mem hi
  have hill : (finished i s).ill = true := by rw [finished_ill, reservedOp_opcode, hres, Bool.or_true]
  have htrace : (finished i s).trace = s.trace := by
    rw [finished_trace, events_eq_nil (.inl hres), List.append_nil]
  have hblock : (finished i s).block = s.block := by
    rw [finished_block, events_eq_nil (.inl hres), applyEvents_nil]
  exact ⟨finished i s, exec_idle i hb, hill, finished_viol_of_reserved hres s, finished_phase_of_reserved hres s, htrace,
    hblock, finished_nib_kept (.inl hres) s, finished_dly_kept (.inl hres) s, finished_busy i s, finished_rest i s⟩

/-- Settles O22: every arm of `exec` runs its list whole, or meets a busy block. -/
theorem noRequestCanFail : Obligations.NoRequestCanFail := fun i s =>
  ⟨⟨_, exec_eq i s⟩, exec_busy i⟩

/-- Settles O23: acceptance writes the flags by the table of R173 and the list of reserved codes. -/
theorem acceptanceFlags : Obligations.AcceptanceFlags := by
  intro i s hb
  have hill : (finished i s).ill = true ↔ s.ill = true ∨ i.isReserved = true := by
    rw [finished_ill, reservedOp_opcode, Bool.or_eq_true]
  exact ⟨finished i s, exec_idle i hb, finished_viol_iff i s, hill, finished_op i s, finished_arg i s⟩

/-! ## The counters (R14, R28, R180) -/

/-- The list an operation in progress runs is a request's, and so no longer than INIT's longest (R14). -/
theorem length_list_le (s : State) : (Clock.list s).length ≤ 175 := by
  obtain ⟨hop, harg⟩ := decodeFields_fields s.op s.arg
  have hlen := length_events_le s.cfg (decodeFields s.op s.arg)
  rwa [← events_program s.nib, events_length, hop, harg] at hlen

/-- Events leave a DLY of 0 at 0 (R104). -/
theorem foldl_dlyAfter_zero (es : List PinEvent) : es.foldl (fun d e => Ops.dlyAfter e d) 0 = 0 := by
  induction es with
  | nil => rfl
  | cons e es ih => cases e <;> exact ih

section Counters

variable {s : State}

theorem countersSound_of_dly_zero (hd : s.dly = 0) (hu : s.upc ≤ 175)
    (hc : s.readCursor ≤ s.cfg.params.msg.length) : Claims.countersSound s :=
  ⟨fun h => absurd hd h, hu, hc⟩

/-- The block after an event or an acceptance: DLY is loaded only if a wait comes next (R20, R180). -/
theorem countersSound_proceed (hb : s.busy = true) (hd : s.dly = 0) (hu : s.upc ≤ 175)
    (hc : s.readCursor ≤ s.cfg.params.msg.length) : Claims.countersSound (Clock.proceed s) := by
  rcases proceed_cases s with ⟨-, h⟩ | ⟨-, h⟩ <;> rw [h]
  · by_cases hw : ∃ c, Clock.currentEvent s = some (.wait c)
    · obtain ⟨c, hw⟩ := hw
      rw [loadDelay_of_wait hw]
      exact ⟨fun _ => ⟨hb, c, hw⟩, hu, hc⟩
    · rw [loadDelay_of_not_wait (not_exists.mp hw)]
      exact countersSound_of_dly_zero hd hu hc
  · exact countersSound_of_dly_zero hd hu hc

variable (hs : Claims.countersSound s)
include hs

theorem dly_eq_zero_of_idle (hb : s.busy = false) : s.dly = 0 := by
  by_contra hd
  obtain ⟨hbusy, -⟩ := hs.1 hd
  simp [hb] at hbusy

/-- Outside a wait DLY is 0 (R180). -/
theorem dly_eq_zero_of_not_wait (h : ∀ c, Clock.currentEvent s ≠ some (.wait c)) : s.dly = 0 := by
  by_contra hd
  obtain ⟨-, c, hc⟩ := hs.1 hd
  exact h c hc

/-- One tick of a busy block: a cycle of a wait leaves the wait in progress, and an event that completes leaves DLY 0 for
the next to load. -/
theorem countersSound_tick (hb : s.busy = true) : Claims.countersSound (Clock.tick s) := by
  have hzero := dly_eq_zero_of_not_wait hs
  obtain ⟨hwait, hu, hc⟩ := hs
  have hnext {m : MicroOp} (hm : Clock.current s = some m) : s.upc + 1 ≤ 175 :=
    (List.getElem?_eq_some_iff.mp hm).1.trans_le (length_list_le s)
  have hcur {m : MicroOp} (hm : Clock.current s = some m) :
      Clock.currentEvent s = some (Operands.event s.nib m) := by rw [Clock.currentEvent, hm, Option.map_some]
  rcases tick_cases s with ⟨hm, ht⟩ | ⟨m, c, hm, he, hd, ht⟩ | ⟨m, l, w, hm, he, hr, hw, ht⟩ |
    ⟨m, l, w, hm, he, hr, ht⟩ | ⟨m, hm, he, hd, ht⟩ <;> rw [ht]
  · exact countersSound_of_dly_zero (hzero (by simp [Clock.currentEvent, hm])) hu hc
  · exact ⟨fun _ => ⟨hb, c, (hcur hm).trans (congrArg some he)⟩, hu, hc⟩
  · exact ⟨hwait, hu, hc⟩
  · exact countersSound_proceed hb (hzero (by simp [hcur hm, he])) (hnext hm) hc
  · have hdly : Ops.dlyAfter (Operands.event s.nib m) s.dly = 0 := by
      cases hev : Operands.event s.nib m with
      | wait c => rfl
      | cfg l | hi l | lo l => exact hzero (by simp [hcur hm, hev])
    exact countersSound_proceed (s := Ops.perform m s) hb hdly (hnext hm) hc

/-- An acceptance: UPC is 0, and DLY was. -/
theorem countersSound_accept (hb : s.busy = false) (i : Instr) : Claims.countersSound (Clock.accept i s) := by
  have hdly := dly_eq_zero_of_idle hs hb
  obtain ⟨-, -, hc⟩ := hs
  rw [Clock.accept, if_neg (by simp [hb])]
  exact countersSound_proceed rfl hdly (Nat.zero_le _) hc

/-- A request run whole: UPC is the length of its list. -/
theorem countersSound_finished (hb : s.busy = false) (i : Instr) : Claims.countersSound (finished i s) := by
  have hdly := dly_eq_zero_of_idle hs hb
  obtain ⟨-, -, hc⟩ := hs
  obtain ⟨hcfg, -, -, -, hcursor, -⟩ := finished_rest i s
  refine countersSound_of_dly_zero ?_ ?_ ?_
  · rw [finished_dly, hdly, foldl_dlyAfter_zero]
  · rw [finished_upc]
    exact length_events_le s.cfg i
  · rwa [hcursor, hcfg]

/-- The moves of the outside are none of the counters' business. -/
theorem countersSound_moved (p : List HostMove) : Claims.countersSound (moved s p) := hs

end Counters

/-- Settles O44: each thing a step can do keeps the three ranges; a READ goes no further than the message. -/
theorem countersStaySound : Obligations.CountersStaySound := by
  intro s t hs h
  rcases step_inversion h with ⟨-, rfl⟩ | ⟨-, hb, p, rfl⟩ | ⟨-, hb, w, -, ht⟩ | ⟨-, hb, w, -, rfl⟩ |
    ⟨-, p, r, g, c, n, q, hc, rfl⟩ | ⟨-, p, a, v, r, -, -, rfl⟩
  · exact countersSound_of_dly_zero rfl (Nat.zero_le _) (Nat.zero_le _)
  · exact countersSound_tick (countersSound_moved hs p) hb
  · obtain rfl := eq_finished_of_exec hb ht
    exact countersSound_finished (countersSound_moved hs _) hb _
  · exact countersSound_accept (countersSound_moved hs _) hb _
  · obtain ⟨hwait, hu, hcursor⟩ := hs
    exact ⟨hwait, hu, hc.elim id fun he => he ▸ hcursor⟩
  · exact hs

/-! ## What a step refuses (R48, R53, R155, R174) -/

theorem ne_addrOf_of_locate_none {c : Config} {a : Nat} (h : Ops.locate c a = none) (r : Reg) :
    a ≠ Ops.addrOf c r := by
  rintro rfl
  simp at h

/-- The moves the spec gives no meaning in a state, and the name each is refused by. -/
inductive NoMeaning (s : State) : HostMove → Refusal → Prop where
  /-- READ with no stream open (R155). -/
  | read (n : Nat) (hg : s.openGuard = false) : NoMeaning s (.readStream n) .streamNotOpen
  /-- WRITE with no stream open (R155). -/
  | write (bs : List Byte) (hg : s.openGuard = false) : NoMeaning s (.writeStream bs) .streamNotOpen
  /-- Another agent reads a set or clear word (R48). -/
  | readWriteOnly (a : Nat) (b : Fin 2) (ha : a = Ops.setAddr s.cfg b ∨ a = Ops.clrAddr s.cfg b) :
    NoMeaning s (.agentRead a) (.readOfWriteOnlyWord a)
  /-- Another agent reads at an offset that is no word's (R53). -/
  | readOutside (a : Nat) (ha : ∀ r, a ≠ Ops.addrOf s.cfg r) : NoMeaning s (.agentRead a) (.offsetOutsideTheBanks a)
  /-- Another agent writes at an offset that is no word's (R53). -/
  | writeOutside (a : Nat) (v : Word) (ha : ∀ r, a ≠ Ops.addrOf s.cfg r) :
    NoMeaning s (.agentWrite a v) (.offsetOutsideTheBanks a)

/-- The move is made, or it has no meaning and is refused by the name for that. -/
def MadeOrRefused (m : HostMove) (s : State) (o : Host.Outcome State Fault Refusal) : Prop :=
  (∃ t, o = .next t) ∨ ∃ r, NoMeaning s m r ∧ o = .refused r

/-- A request at the port is never refused (R174). -/
theorem present_next (w : Request) (s : State) : ∃ t, answer (.present w s) = .next t := by
  rw [answer]
  cases s.pace with
  | whole => exact ⟨_, exec_eq _ _⟩
  | clocked => exact ⟨_, rfl⟩

theorem agentRead_madeOrRefused (a : Nat) (s : State) : MadeOrRefused (.agentRead a) s (HostLayer.agentRead a s) := by
  unfold HostLayer.agentRead
  split
  · exact .inl ⟨_, rfl⟩
  · rename_i b hloc
    exact .inr ⟨_, .readWriteOnly a b (.inl (addrOf_locate s.cfg hloc).symm), rfl⟩
  · rename_i b hloc
    exact .inr ⟨_, .readWriteOnly a b (.inr (addrOf_locate s.cfg hloc).symm), rfl⟩
  · exact .inr ⟨_, .readOutside a (ne_addrOf_of_locate_none ‹_›), rfl⟩

theorem agentWrite_madeOrRefused (a : Nat) (v : Word) (s : State) :
    MadeOrRefused (.agentWrite a v) s (HostLayer.agentWrite a v s) := by
  unfold HostLayer.agentWrite
  split
  · exact .inl ⟨_, rfl⟩
  · exact .inr ⟨_, .writeOutside a v (ne_addrOf_of_locate_none ‹_›), rfl⟩

theorem readStream_madeOrRefused (n : Nat) (s : State) :
    MadeOrRefused (.readStream n) s (HostLayer.readStream n s) := by
  unfold HostLayer.readStream
  split
  · exact .inl ⟨_, rfl⟩
  · exact .inr ⟨_, .read n (Bool.eq_false_iff.mpr ‹_›), rfl⟩

theorem writeStream_madeOrRefused (bs : List Byte) (s : State) :
    MadeOrRefused (.writeStream bs) s (HostLayer.writeStream bs s) := by
  unfold HostLayer.writeStream
  split
  · exact .inl ⟨_, rfl⟩
  · exact .inr ⟨_, .write bs (Bool.eq_false_iff.mpr ‹_›), rfl⟩

theorem act_madeOrRefused (m : HostMove) (s : State) : MadeOrRefused m s (answer (HostLayer.act m s)) := by
  cases m with
  | request w => exact .inl (present_next w s)
  | feed ws len =>
    cases ws with
    | nil => exact .inl ⟨_, rfl⟩
    | cons w ws => exact .inl (present_next w _)
  | readStream n => exact readStream_madeOrRefused n s
  | writeStream bs => exact writeStream_madeOrRefused bs s
  | agentRead a => exact agentRead_madeOrRefused a s
  | agentWrite a v => exact agentWrite_madeOrRefused a v s
  | clock | readStatus | openStream | closeStream | assertReset _ | setPace _ => exact .inl ⟨_, rfl⟩

/-- Settles O51: a reset, a block left to itself and a busy block that the host waits for go on; of the moves that are made
only those without meaning are refused. -/
theorem onlyOutsideMovesAreRefused : Obligations.OnlyOutsideMovesAreRefused := by
  intro s
  by_cases hr : s.rstIn = some 0
  · exact .inl ⟨_, step_reset hr⟩
  cases hp : s.pending with
  | nil => exact .inl ⟨_, step_nothing_pending hr hp⟩
  | cons m rest =>
    by_cases hwait : s.busy = true ∧ HostLayer.waitsForIdle m = true
    · obtain ⟨hb, hw⟩ := hwait
      exact .inl ⟨_, step_busy hb hr (.inr ⟨m, rest, hp, hw⟩)⟩
    · have hidle : HostLayer.waitsForIdle m = true → s.busy = false := fun hw =>
        Bool.eq_false_iff.mpr fun hb => hwait ⟨hb, hw⟩
      have hstep := step_act hr hp hidle
      rcases act_madeOrRefused m (moved s rest) with ⟨t, ht⟩ | ⟨r, hno, hrefused⟩
      · exact .inl ⟨t, hstep.trans ht⟩
      · refine .inr ⟨hr, m, rest, rfl, ?_⟩
        rw [hrefused] at hstep
        cases hno with
        | read n hg => exact .inl ⟨hg, hidle rfl, hstep, .inl ⟨n, rfl⟩⟩
        | write bs hg => exact .inl ⟨hg, hidle rfl, hstep, .inr ⟨bs, rfl⟩⟩
        | readWriteOnly a b ha => exact .inr (.inl ⟨a, rfl, hstep, b, ha⟩)
        | readOutside a ha => exact .inr (.inr ⟨a, .inl rfl, hstep, ha⟩)
        | writeOutside a v ha => exact .inr (.inr ⟨a, .inr ⟨v, rfl⟩, hstep, ha⟩)

end Sys2Proof.Proofs
end

section
/-! PROOFS. The least duration of each operation of the block (O31). -/

namespace Sys2Proof.Proofs

open Machine Laws

/-! ## The sum of an operation's waits (R104, R210) -/

theorem leastTime_rwEvents (p : Params) : Observe.leastTime p (Claims.rwEvents p) = 0 := by
  unfold Claims.rwEvents
  split <;> rfl

/-- CONFIG waits for nothing, whether or not RW has a pin (R125). -/
theorem leastTime_config (p : Params) : Observe.leastTime p (Claims.config p) = 0 := by
  rw [Claims.config, leastTime_append, leastTime_rwEvents]
  rfl

/-- INIT waits out its ten CMDSEQ: seven fixed nibbles, the open lists, and a delay after each (R127). -/
theorem leastTime_init (p : Params) :
    Observe.leastTime p (Claims.init p) =
      (7 + Claims.openNibbles p) * Claims.pulseTime p + 2 * p.minTime.initLong + p.minTime.initShort +
        6 * p.minTime.cmd + p.minTime.clear := by
  simp only [Claims.init, leastTime_append, leastTime_cmdSeq, List.length_cons, List.length_nil, Delays.of,
    Claims.openNibbles]
  ring

/-- Settles O31: what a CMDSEQ waits, summed over the CMDSEQ of each operation. -/
theorem leastDurations : Obligations.LeastDurations := fun p _ =>
  ⟨leastTime_config p, rfl, leastTime_wrcmd p _, leastTime_wrdata p _, leastTime_cmdSeq p [0x0, 0x1] .clear,
    leastTime_cmdSeq p [0x0, 0x2] .cmd, leastTime_cmdSeq p [0x0, 0xC] .cmd, leastTime_init p⟩

end Sys2Proof.Proofs
end
